-- ==== Sys2Proof/Word.lean ====
section
/-!
DEFINITION. The plain values every other file speaks of: one port bit, the sign of a result, the five classes of a
pattern and the labels of the three configured formats.
-/

namespace Sys2Proof

/-- One port bit; 1 stands for true (00_scope.md R11). -/
abbrev Bit := BitVec 1

/-- The sign of a Decoded Value, `+1` or `-1` (10_state.md R24). -/
inductive Sign where
  | plus
  | minus
deriving DecidableEq, Repr

/-- The bit that stands for a sign: 0 for `+1`, 1 for `-1` (10_state.md R19). -/
def Sign.bit : Sign → Bit
  | .plus => 0
  | .minus => 1

/-- The sign a bit stands for (40_extract.md R58). -/
def Sign.ofBit (b : Bit) : Sign :=
  if b = 1 then .minus else .plus

/-- The other sign. -/
def Sign.flip : Sign → Sign
  | .plus => .minus
  | .minus => .plus

/-- The five classes of 42_classify.md R70. -/
inductive Cls where
  | zero
  | subnormal
  | inf
  | nan
  | normal
deriving DecidableEq, Repr

/-- The spec's labels of the three configured formats (44_formats.md R91 to R93). -/
inductive FormatLabel where
  | e5m2
  | e4m3
  | e2m1
deriving DecidableEq, Repr

end Sys2Proof
end

