-- ==== Sys2Proof/Config.lean ====
section
/-!
DEFINITION. What an implementation fixes: the Format Descriptor, the instance (a descriptor and a port width) with its
identity, and the free values, which are constants with no body.
-/

namespace Sys2Proof

/-- A valid Format Descriptor (10_state.md R15 to R17). It carries the proof of `1 + E + M = W`, so DECODE is never
applied to an invalid one (60_exceptions.md R110). `W ≥ 1` follows from the sum, and `E` and `M` are natural numbers. -/
structure Descriptor where
  /-- `total_bits`. -/
  W : Nat
  /-- `exponent_bits`. -/
  E : Nat
  /-- `mantissa_bits`. -/
  M : Nat
  /-- `bias`, any integer. -/
  bias : Int
  /-- `has_infinity`. -/
  hasInf : Bool
  /-- The mask of `nan_mantissa_codes`: bit `c` is set iff `c` is one of the codes (R16). -/
  nanMask : BitVec (2 ^ M)
  /-- The one condition the source enforces (R17). -/
  sum : 1 + E + M = W
deriving DecidableEq, Repr

/-- The six fields as an integrator writes them down, not yet checked (00_scope.md R8, 60_exceptions.md R110).
A NaN code outside `[0, 2^M)` cannot be expressed (10_state.md R16). -/
structure RawDescriptor where
  W : Int
  E : Int
  M : Int
  bias : Int
  hasInf : Bool
  nanMask : BitVec (2 ^ M.toNat)
deriving DecidableEq, Repr

/-- The configuration error: fatal, detected at construction, before any decoding (60_exceptions.md R110). -/
inductive ConfigError where
  | invalidDescriptor
deriving DecidableEq, Repr

/-- One instance of the block: a valid descriptor and the width `BUSW ≥ W` of its input port (00_scope.md R9).
Both are constants of the instance for its whole life (10_state.md R15, R26). -/
structure Instance where
  desc : Descriptor
  busw : Nat
  fits : desc.W ≤ busw
deriving DecidableEq, Repr

/-- The identity of a model of the block: the hardware's name and the descriptor (00_scope.md R2). The spec has no version,
part number or ISA string to carry. -/
structure Identity where
  name : String
  desc : Descriptor
deriving DecidableEq, Repr

/-- The hardware's name (00_scope.md R1, R2). -/
def hardwareName : String :=
  "minifloat_decoder"

/-- The identity of an instance: the pair (`minifloat_decoder`, descriptor) (00_scope.md R2). -/
def Instance.identity (u : Instance) : Identity :=
  { name := hardwareName, desc := u.desc }

/-! Free values: the four data ports while `err = 1` (93_implementation_defined.md U1; log entry 6). They are functions
of the instance and of the input value because every output is one (10_state.md R19, R25). -/

/-- Free value of `tag` for an out-of-range input. -/
opaque Config.freeTag (u : Instance) (bits : Nat) : BitVec 2

/-- Free value of `sign` for an out-of-range input. -/
opaque Config.freeSign (u : Instance) (bits : Nat) : Bit

/-- Free value of `sig` for an out-of-range input, at the width of the port. -/
opaque Config.freeSig (u : Instance) (bits width : Nat) : BitVec width

/-- Free value of `exp` for an out-of-range input, at the width of the port. -/
opaque Config.freeExp (u : Instance) (bits width : Nat) : BitVec width

/-- The notation an external serializer uses for the magnitude `digits * 10 ^ scale` of a Finite value: the open
parameter `RENDER_STYLE` (92_eei_decisions.md D22; log entry 15). No part of the block reads it. -/
opaque Config.decimalText (digits : Nat) (scale : Int) : String

end Sys2Proof
end

