-- ==== Sys2Proof/Machine/Formats.lean ====
section
/-!
DEFINITION. The three configured descriptors, the width of the `exp` port, and the making of a descriptor from
unchecked fields.
-/

namespace Sys2Proof.Machine

/-- The mask of a list of NaN codes: bit `c` is set iff `c` is listed (10_state.md R16). A code outside `[0, 2^M)`
cannot be expressed (R16). DESIGN CHOICE: one in the list is dropped (log entry 22). Safe. -/
def nanMaskOf (M : Nat) : List Nat → BitVec (2 ^ M)
  | [] => 0
  | c :: cs => BitVec.twoPow (2 ^ M) c ||| nanMaskOf M cs

/-- Descriptor E5M2 (44_formats.md R91; bias and codes 1 and 2 by the spec's decisions D13 and D14, log entry 11). -/
def e5m2 : Descriptor :=
  { W := 8, E := 5, M := 2, bias := 15, hasInf := true, nanMask := nanMaskOf 2 [1, 2, 3], sum := rfl }

/-- Descriptor E4M3 (44_formats.md R92). -/
def e4m3 : Descriptor :=
  { W := 8, E := 4, M := 3, bias := 7, hasInf := false, nanMask := nanMaskOf 3 [7], sum := rfl }

/-- Descriptor E2M1 (44_formats.md R93; bias by the spec's decision D13, log entry 11). -/
def e2m1 : Descriptor :=
  { W := 4, E := 2, M := 1, bias := 1, hasInf := false, nanMask := nanMaskOf 1 [], sum := rfl }

/-- The descriptor behind a label. -/
def descriptorOf : FormatLabel → Descriptor
  | .e5m2 => e5m2
  | .e4m3 => e4m3
  | .e2m1 => e2m1

/-- Which configured format a descriptor is, if it is one of the three. The table has rows for these only
(30_encoding.md R48). -/
def formatOf (d : Descriptor) : Option FormatLabel :=
  if d = e5m2 then some .e5m2
  else if d = e4m3 then some .e4m3
  else if d = e2m1 then some .e2m1
  else none

/-- The instance of a descriptor with the default port width `BUSW = W` (00_scope.md R9). -/
def defaultInstance (d : Descriptor) : Instance :=
  { desc := d, busw := d.W, fits := Nat.le_refl d.W }

/-- `NAN_CODES` as a list, ascending (10_state.md R16). -/
def nanCodes (d : Descriptor) : List Nat :=
  (List.range (2 ^ d.M)).filter fun c => d.nanMask.getLsbD c

/-- How many bits write a natural number down; 0 for 0. -/
def bitLength (n : Nat) : Nat :=
  if n = 0 then 0 else n.log2 + 1

/-- The least width, at least 1, whose two's complement vectors hold `x`. -/
def signedWidth (x : Int) : Nat :=
  bitLength (if 0 ≤ x then x.toNat else (-x - 1).toNat) + 1

/-- The smallest exponent the bias subtractor can give, `1 - BIAS` (41_bias_exponent.md R66). -/
def minExp (d : Descriptor) : Int :=
  1 - d.bias

/-- The largest exponent the bias subtractor can give, `max(1, 2^E - 1) - BIAS` (41_bias_exponent.md R64, R66). -/
def maxExp (d : Descriptor) : Int :=
  (max 1 (2 ^ d.E - 1) : Nat) - d.bias

/-- `EXPW`, the width of the signed output port `exp` (00_scope.md R9). -/
def expw (d : Descriptor) : Nat :=
  max (signedWidth (minExp d)) (signedWidth (maxExp d))

/-- Making a descriptor: a configuration error, not a descriptor, for fields that are not valid (10_state.md R17,
60_exceptions.md R110). -/
def mkDescriptor (r : RawDescriptor) : Except ConfigError Descriptor :=
  if h : 1 ≤ r.W ∧ 0 ≤ r.E ∧ 0 ≤ r.M ∧ 1 + r.E + r.M = r.W then
    .ok { W := r.W.toNat, E := r.E.toNat, M := r.M.toNat, bias := r.bias, hasInf := r.hasInf,
          nanMask := r.nanMask, sum := by omega }
  else .error .invalidDescriptor

end Sys2Proof.Machine
end

