-- ==== Sys2Proof/Syntax.lean ====
section
/-!
DEFINITION. The operations: one constructor for each mnemonic of `opcode_table.json` (30_encoding.md R48).
-/

namespace Sys2Proof

/-- What a presented pattern selects: a row of the table with the values of its free letters, or the generic operation
with the integer on the port. -/
inductive Instr where
  /-- DECODE, the block's one operation, on any instance and any input (43_output_mux.md R83). -/
  | decode (bits : Nat)
  /-- E5M2.ZERO, `s0000000`. -/
  | e5m2Zero (s : Sign)
  /-- E5M2.SUBNORMAL, rows `s000001m` and `s0000001`; `m` is the whole mantissa field. -/
  | e5m2Subnormal (s : Sign) (m : BitVec 2)
  /-- E5M2.INF, `s1111100`. -/
  | e5m2Inf (s : Sign)
  /-- E5M2.NAN, rows `s111111m` and `s1111101`; `m` is the whole mantissa field. -/
  | e5m2Nan (s : Sign) (m : BitVec 2)
  /-- E5M2.NORMAL, `seeeeemm` where no other row fits. -/
  | e5m2Normal (s : Sign) (e : BitVec 5) (m : BitVec 2)
  /-- E4M3.ZERO, `s0000000`. -/
  | e4m3Zero (s : Sign)
  /-- E4M3.SUBNORMAL, rows `s00001mm`, `s000001m` and `s0000001`; `m` is the whole mantissa field. -/
  | e4m3Subnormal (s : Sign) (m : BitVec 3)
  /-- E4M3.NAN, `s1111111`. -/
  | e4m3Nan (s : Sign)
  /-- E4M3.NORMAL, `seeeemmm` where no other row fits. -/
  | e4m3Normal (s : Sign) (e : BitVec 4) (m : BitVec 3)
  /-- E2M1.ZERO, `s000`. -/
  | e2m1Zero (s : Sign)
  /-- E2M1.SUBNORMAL, `s001`. -/
  | e2m1Subnormal (s : Sign)
  /-- E2M1.NORMAL, `seem` where no other row fits. -/
  | e2m1Normal (s : Sign) (e : BitVec 2) (m : BitVec 1)
deriving DecidableEq, Repr

end Sys2Proof
end

