-- ==== Sys2Proof/WellFormed.lean ====
section
/-!
DEFINITION. Which operand values are values of their row, and which operations an instance has.
-/

namespace Sys2Proof

/-- The operands are values that the rows of this mnemonic can give (30_encoding.md R47, R48; the table's notes). -/
def Instr.wellFormed : Instr → Bool
  | .decode _ => true
  | .e5m2Zero _ => true
  | .e5m2Subnormal _ m => m != 0
  | .e5m2Inf _ => true
  | .e5m2Nan _ m => m != 0
  | .e5m2Normal _ e _ => e != 0 && e != 31
  | .e4m3Zero _ => true
  | .e4m3Subnormal _ m => m != 0
  | .e4m3Nan _ => true
  | .e4m3Normal _ e m => e != 0 && !(e == 15 && m == 7)
  | .e2m1Zero _ => true
  | .e2m1Subnormal _ => true
  | .e2m1Normal _ e _ => e != 0

/-- The configured format a class row belongs to; the generic operation belongs to none. -/
def Instr.format : Instr → Option FormatLabel
  | .decode _ => none
  | .e5m2Zero _ => some .e5m2
  | .e5m2Subnormal _ _ => some .e5m2
  | .e5m2Inf _ => some .e5m2
  | .e5m2Nan _ _ => some .e5m2
  | .e5m2Normal _ _ _ => some .e5m2
  | .e4m3Zero _ => some .e4m3
  | .e4m3Subnormal _ _ => some .e4m3
  | .e4m3Nan _ => some .e4m3
  | .e4m3Normal _ _ _ => some .e4m3
  | .e2m1Zero _ => some .e2m1
  | .e2m1Subnormal _ => some .e2m1
  | .e2m1Normal _ _ _ => some .e2m1

/-- The instance has this operation: a class row on an instance of its own format; the generic operation with a value
the port carries, on a descriptor without rows or with a value outside the format (30_encoding.md R48, R50). -/
def Instr.on (u : Instance) : Instr → Bool
  | .decode b => decide (b < 2 ^ u.busw) && ((Machine.formatOf u.desc).isNone || decide (2 ^ u.desc.W ≤ b))
  | i => decide (Machine.formatOf u.desc = i.format)

/-- Well-formed on an instance: exactly the operations its decoder can answer. -/
def Instr.wellFormedOn (u : Instance) (i : Instr) : Bool :=
  i.wellFormed && i.on u

end Sys2Proof
end

