-- ==== Sys2Proof/Decode.lean ====
section
/-!
DEFINITION. From the value on the input port to the operation it selects, by the rows of `opcode_table.json`, and back.
The order of bits is that of 30_encoding.md R41 and R42; rows are taken first match by priority (R48).
-/

namespace Sys2Proof

/-- `len` bits of `p` from bit `lo` up, as an unsigned integer; a zero-width slice is 0 (00_scope.md R10). -/
def slice (p lo len : Nat) : Nat :=
  (p >>> lo) % 2 ^ len

/-- The sign at one bit of a pattern (40_extract.md R55, R58). -/
def signAt (p i : Nat) : Sign :=
  Sign.ofBit (BitVec.ofNat 1 (slice p i 1))

/-- A row of the table: `p` fits it iff `p AND mask = pattern`; `make` reads the free letters. -/
structure TableRow where
  cls : Cls
  priority : Nat
  mask : Nat
  pattern : Nat
  make : Nat → Instr

/-- The pattern fits the row (30_encoding.md R48). -/
def TableRow.fits (r : TableRow) (p : Nat) : Bool :=
  p &&& r.mask == r.pattern

/-- The rows of E5M2, in the order of their priority: `s` is bit 7, `e` bits 6 to 2, `m` bits 1 and 0. -/
def e5m2Rows : List TableRow :=
  [ ⟨.zero, 1, 0x7F, 0x00, fun p => .e5m2Zero (signAt p 7)⟩,
    ⟨.subnormal, 2, 0x7E, 0x02, fun p => .e5m2Subnormal (signAt p 7) (BitVec.ofNat 2 p)⟩,
    ⟨.subnormal, 2, 0x7F, 0x01, fun p => .e5m2Subnormal (signAt p 7) (BitVec.ofNat 2 p)⟩,
    ⟨.inf, 3, 0x7F, 0x7C, fun p => .e5m2Inf (signAt p 7)⟩,
    ⟨.nan, 4, 0x7E, 0x7E, fun p => .e5m2Nan (signAt p 7) (BitVec.ofNat 2 p)⟩,
    ⟨.nan, 4, 0x7F, 0x7D, fun p => .e5m2Nan (signAt p 7) (BitVec.ofNat 2 p)⟩,
    ⟨.normal, 5, 0x00, 0x00, fun p => .e5m2Normal (signAt p 7) (BitVec.ofNat 5 (slice p 2 5)) (BitVec.ofNat 2 p)⟩ ]

/-- The rows of E4M3, in the order of their priority: `s` is bit 7, `e` bits 6 to 3, `m` bits 2 to 0. -/
def e4m3Rows : List TableRow :=
  [ ⟨.zero, 1, 0x7F, 0x00, fun p => .e4m3Zero (signAt p 7)⟩,
    ⟨.subnormal, 2, 0x7C, 0x04, fun p => .e4m3Subnormal (signAt p 7) (BitVec.ofNat 3 p)⟩,
    ⟨.subnormal, 2, 0x7E, 0x02, fun p => .e4m3Subnormal (signAt p 7) (BitVec.ofNat 3 p)⟩,
    ⟨.subnormal, 2, 0x7F, 0x01, fun p => .e4m3Subnormal (signAt p 7) (BitVec.ofNat 3 p)⟩,
    ⟨.nan, 4, 0x7F, 0x7F, fun p => .e4m3Nan (signAt p 7)⟩,
    ⟨.normal, 5, 0x00, 0x00, fun p => .e4m3Normal (signAt p 7) (BitVec.ofNat 4 (slice p 3 4)) (BitVec.ofNat 3 p)⟩ ]

/-- The rows of E2M1, in the order of their priority: `s` is bit 3, `e` bits 2 and 1, `m` bit 0. -/
def e2m1Rows : List TableRow :=
  [ ⟨.zero, 1, 0x7, 0x0, fun p => .e2m1Zero (signAt p 3)⟩,
    ⟨.subnormal, 2, 0x7, 0x1, fun p => .e2m1Subnormal (signAt p 3)⟩,
    ⟨.normal, 5, 0x0, 0x0, fun p => .e2m1Normal (signAt p 3) (BitVec.ofNat 2 (slice p 1 2)) (BitVec.ofNat 1 p)⟩ ]

/-- The rows of a configured format. -/
def rowsOf : FormatLabel → List TableRow
  | .e5m2 => e5m2Rows
  | .e4m3 => e4m3Rows
  | .e2m1 => e2m1Rows

/-- The row that applies to a pattern: the first that fits. The last row of every format fits every pattern, so the
generic answer after it is never given. -/
def decodeRow (rows : List TableRow) (p : Nat) : Instr :=
  match rows.find? (fun r => r.fits p) with
  | some r => r.make p
  | none => .decode p

/-- The operation selected by an integer given to an instance. The rows of the table are about the `W` pattern bits of
a configured format; everything else is the generic operation (30_encoding.md R48, R50; log entry 14). -/
def decodeValue (u : Instance) (bits : Nat) : Instr :=
  if 2 ^ u.desc.W ≤ bits then .decode bits
  else
    match Machine.formatOf u.desc with
    | some f => decodeRow (rowsOf f) bits
    | none => .decode bits

/-- The operation the input port selects. Total: no pattern is illegal (30_encoding.md R50). -/
def decodeInput (u : Instance) (bits : BitVec u.busw) : Instr :=
  decodeValue u bits.toNat

/-- Why an integer selects no operation of an instance. -/
inductive DecodeError where
  /-- The input port has too few wires to carry the integer (10_state.md R18). -/
  | widerThanPort
deriving DecidableEq, Repr

/-- Decoding of any integer whatever: one that the port cannot carry is rejected by name. -/
def decodeInteger (u : Instance) (n : Nat) : Except DecodeError Instr :=
  if n < 2 ^ u.busw then .ok (decodeValue u n) else .error .widerThanPort

/-- A pattern from its three fields, with the widths of a descriptor (30_encoding.md R41). -/
def pack (d : Descriptor) (s : Sign) (e m : Nat) : Nat :=
  s.bit.toNat * 2 ^ (d.W - 1) + e * 2 ^ d.M + m

/-- The value to present at the port for an operation: the inverse of decoding. -/
def encode : Instr → Nat
  | .decode b => b
  | .e5m2Zero s => pack Machine.e5m2 s 0 0
  | .e5m2Subnormal s m => pack Machine.e5m2 s 0 m.toNat
  | .e5m2Inf s => pack Machine.e5m2 s 31 0
  | .e5m2Nan s m => pack Machine.e5m2 s 31 m.toNat
  | .e5m2Normal s e m => pack Machine.e5m2 s e.toNat m.toNat
  | .e4m3Zero s => pack Machine.e4m3 s 0 0
  | .e4m3Subnormal s m => pack Machine.e4m3 s 0 m.toNat
  | .e4m3Nan s => pack Machine.e4m3 s 15 7
  | .e4m3Normal s e m => pack Machine.e4m3 s e.toNat m.toNat
  | .e2m1Zero s => pack Machine.e2m1 s 0 0
  | .e2m1Subnormal s => pack Machine.e2m1 s 0 1
  | .e2m1Normal s e m => pack Machine.e2m1 s e.toNat m.toNat

/-- The instance that a word of the table is read on. A word of 4 bits can only be E2M1's; a longer one carries no
format, and is read on E5M2 with a port of its length, at least 8 wires (log entry 9). -/
def tableInstance (nbits : Nat) : Instance :=
  if nbits = 4 then Machine.defaultInstance Machine.e2m1
  else { desc := Machine.e5m2, busw := max 8 nbits, fits := Nat.le_max_left 8 nbits }

/-- The operation the decoder reads from a word of the table, `nbits` long; none for a number that is not `nbits` long. -/
def decodeTableWord (nbits w : Nat) : Option Instr :=
  if w < 2 ^ nbits then some (decodeInput (tableInstance nbits) (BitVec.ofNat _ w)) else none

end Sys2Proof
end

