-- ==== Sys2Proof/Machine/State.lean ====
section
/-!
DEFINITION. The state: one instance, the value on its input port and its five output ports. The block stores nothing
(10_state.md R13); INVENTORY.md lists each field with its rule.
-/

namespace Sys2Proof.Machine

/-- The two error kinds of the spec, and no other (60_exceptions.md R108, R109). -/
inductive Fault where
  /-- Raised by `elaborate` for an invalid descriptor: no instance exists (60_exceptions.md R110). Safe. -/
  | configError
  /-- The result of an evaluation whose input is not below `2^W` (60_exceptions.md R111); `State.result` answers it, and
  `err` is 1. It never stops the machine (log entry 5). Safe. -/
  | rangeViolation (bits : Nat)
deriving DecidableEq, Repr

/-- Why an operation has no meaning where it stands. -/
inductive Refusal where
  /-- An operation of the table with no meaning in this model; raised by no arm. Safe. -/
  | notModelled (mnemonic : String)
  /-- Raised by a class row's meaning on an instance of another format, or with operands of another class: the row is
  not the one that applies there (30_encoding.md R48; log entry 8). The decoder never answers such a row. Safe. -/
  | notThisRow (mnemonic : String)
  /-- Raised by the generic operation's meaning for an integer that the input port has too few wires to carry: there is
  no such evaluation (10_state.md R18; log entry 20). No port value selects it. Safe. -/
  | widerThanPort (bits : Nat)
deriving DecidableEq, Repr

/-- The source's Decoded Value (10_state.md R24). A Finite one stands for `sign * sig * 2^(exp - M)`. DESIGN
CHOICE: the type does not hold `sig` to the spec's `[1, 2^(M+1) - 1]`, which depends on the descriptor; `Allows` does
(log entry 18). Safe. -/
inductive DecodedValue where
  | zero (s : Sign)
  | finite (s : Sign) (sig : Nat) (exp : Int)
  | infinity (s : Sign)
  | nan
deriving DecidableEq, Repr

/-- The five output ports of an instance with descriptor `d` (10_state.md R19). -/
structure Outputs (d : Descriptor) where
  err : Bit
  tag : BitVec 2
  sign : Bit
  sig : BitVec (d.M + 1)
  exp : BitVec (expw d)
deriving DecidableEq, Repr

/-- An instance with what its ports carry. `inst` never changes (10_state.md R15); `bits` is the host's to drive (R18);
`out` is what the output wires carry. It is no storage: every
operation that puts a value on the port drives the outputs of that value with it, so no operation leaves a state whose
outputs are those of another input (R13, R19, R26; `State.Settled`; log entry 4). -/
structure State where
  inst : Instance
  bits : BitVec inst.busw
  out : Outputs inst.desc
deriving DecidableEq, Repr

/-- Reset does nothing to the block: the outputs are those of R83 for what the input carries (10_state.md R26). The
spec fixes neither the instance nor the input; the model takes E5M2 with `BUSW = W` and the input 0 (log entries 2, 3),
for which R83 gives Zero(+1), every port 0. -/
def State.reset : State :=
  { inst := defaultInstance e5m2, bits := 0, out := { err := 0, tag := 0, sign := 0, sig := 0, exp := 0 } }

end Sys2Proof.Machine
end

