-- ==== Sys2Proof/Machine/Flags.lean ====
section
/-!
DEFINITION. Sub-block 3, the special-value classifier (42_classify.md), and the error output. The block has no flags
(10_state.md R23); these are its one-bit conditions.
-/

namespace Sys2Proof.Machine

/-- EXPZERO (41_bias_exponent.md R61). -/
def expIsZero (e : Nat) : Bool :=
  e == 0

/-- `exp_is_max`: the all-ones exponent field (42_classify.md R70). -/
def expIsMax (d : Descriptor) (e : Nat) : Bool :=
  e == 2 ^ d.E - 1

/-- `man_is_zero` (42_classify.md R70). -/
def manIsZero (m : Nat) : Bool :=
  m == 0

/-- `man_is_nan`: the explicit membership test `NAN_MASK[mantissa_field]` (42_classify.md R70, R74). -/
def manIsNan (d : Descriptor) (m : Nat) : Bool :=
  d.nanMask.getLsbD m

/-- CLASSIFY: the first arm that holds, in this order (42_classify.md R70). -/
def classify (d : Descriptor) (e m : Nat) : Cls :=
  if expIsZero e && manIsZero m then .zero
  else if expIsZero e then .subnormal
  else if expIsMax d e && d.hasInf && manIsZero m then .inf
  else if expIsMax d e && manIsNan d m then .nan
  else .normal

/-- The error output as wired: some wire of `bits[BUSW-1:W]` is 1 (60_exceptions.md R111). -/
def errPort (u : Instance) (bits : BitVec u.busw) : Bit :=
  BitVec.ofBool (decide (u.desc.W < u.busw) && bits.extractLsb' u.desc.W (u.busw - u.desc.W) != 0)

end Sys2Proof.Machine
end

