-- ==== Sys2Proof/Machine/Operands.lean ====
section
/-!
DEFINITION. Sub-block 1, the field extractor (40_extract.md), and sub-block 2, the bias subtractor with significand
assembly (41_bias_exponent.md).
-/

namespace Sys2Proof.Machine

/-- EXTRACT.SIGN: `bits[W-1]` (40_extract.md R55). -/
def signBit (d : Descriptor) (p : Nat) : Bit :=
  BitVec.ofNat 1 (slice p (d.W - 1) 1)

/-- EXTRACT.EXP: `uint(bits[W-2:M])`, `E` bits (40_extract.md R56). -/
def exponentField (d : Descriptor) (p : Nat) : Nat :=
  slice p d.M d.E

/-- EXTRACT.MAN: `uint(bits[M-1:0])`, `M` bits (40_extract.md R57). -/
def mantissaField (d : Descriptor) (p : Nat) : Nat :=
  slice p 0 d.M

/-- SIGNVAL: `-1` or `+1`, used by `val` only (40_extract.md R58). -/
def signVal (b : Bit) : Int :=
  if b = 1 then -1 else 1

/-- HIDDEN: the implicit leading significand bit (41_bias_exponent.md R62). -/
def hiddenBit (e : Nat) : Nat :=
  if expIsZero e then 0 else 1

/-- SIG: `{hidden, mantissa_field}`, `M + 1` bits (41_bias_exponent.md R63). For `m < 2^M`, which every pattern has,
nothing is cut off (log entry 18). -/
def sigRaw (d : Descriptor) (e m : Nat) : BitVec (d.M + 1) :=
  BitVec.ofNat (d.M + 1) (hiddenBit e * 2 ^ d.M + m)

/-- EEFF: the effective stored exponent (41_bias_exponent.md R64). -/
def eEff (e : Nat) : Nat :=
  if expIsZero e then 1 else e

/-- `zext_N(v)`: the `N`-bit vector of an unsigned integer (00_scope.md R11). DESIGN CHOICE: the spec defines it for
`0 ≤ v < 2^N` only; outside, this total form wraps modulo `2^N` (log entry 18). Safe. -/
abbrev zext (n : Nat) (v : Nat) : BitVec n :=
  BitVec.ofNat n v

/-- `sext_N(v)`: the `N`-bit two's complement vector of a signed integer (00_scope.md R11). DESIGN CHOICE: the spec
defines it for the integers that fit only; outside, this total form wraps (log entry 16). Safe. -/
def sext (n : Nat) (v : Int) : BitVec n :=
  BitVec.ofInt n v

/-- EXPSUB, the bias subtractor proper (41_bias_exponent.md R65). -/
def expRaw (d : Descriptor) (e : Nat) : BitVec (expw d) :=
  sext (expw d) ((eEff e : Int) - d.bias)

end Sys2Proof.Machine
end

