-- ==== Sys2Proof/Machine/Ops.lean ====
section
/-!
DEFINITION. Sub-block 4, the tagged-output mux (43_output_mux.md); the range violation; the whole block; what the host
and the integrator do to an instance; the one shared form of a class row's meaning.
-/

namespace Sys2Proof.Machine

/-- MUX.TAG (43_output_mux.md R80; the codes of 30_encoding.md R44). -/
def muxTag : Cls → BitVec 2
  | .zero => 0b00
  | .subnormal => 0b01
  | .normal => 0b01
  | .inf => 0b10
  | .nan => 0b11

/-- MUX.SIGN: the sign of a NaN pattern is dropped (43_output_mux.md R81). -/
def muxSign (c : Cls) (s : Bit) : Bit :=
  if c = .nan then 0 else s

/-- The two classes with a Finite result (43_output_mux.md R82). -/
def isFinite (c : Cls) : Bool :=
  c == .subnormal || c == .normal

/-- MUX.PAYLOAD for one port: passed for a Finite result, forced to 0 otherwise (43_output_mux.md R82). -/
def muxPayload {n : Nat} (c : Cls) (raw : BitVec n) : BitVec n :=
  if isFinite c then raw else 0

/-- The four sub-blocks put together for given fields and class, `err = 0` (43_output_mux.md R83, last sentence). -/
def assemble (d : Descriptor) (c : Cls) (s : Bit) (e m : Nat) : Outputs d :=
  { err := 0
    tag := muxTag c
    sign := muxSign c s
    sig := muxPayload c (sigRaw d e m)
    exp := muxPayload c (expRaw d e) }

/-- The composition of extractor, subtractor, classifier and mux on a pattern (00_scope.md R3). DESIGN CHOICE: it is total
and has no range check, and the spec has no pattern of `2^W` or more (log entry 22). The machine never uses it. Safe. -/
def composition (d : Descriptor) (p : Nat) : Outputs d :=
  assemble d (classify d (exponentField d p) (mantissaField d p)) (signBit d p) (exponentField d p) (mantissaField d p)

/-- RangeViolation, the block's one run-time error: `err` is 1 and the four other ports hold free values
(60_exceptions.md R111, R115; 93_implementation_defined.md U1; log entries 5, 6). -/
def raiseRangeViolation (u : Instance) (bits : Nat) : Outputs u.desc :=
  { err := 1
    tag := Config.freeTag u bits
    sign := Config.freeSign u bits
    sig := Config.freeSig u bits (u.desc.M + 1)
    exp := Config.freeExp u bits (expw u.desc) }

/-- DECODE, the whole block, arm by arm as the spec writes it (43_output_mux.md R83). -/
def block (u : Instance) (bits : Nat) : Outputs u.desc :=
  let d := u.desc
  if 2 ^ d.W ≤ bits then raiseRangeViolation u bits
  else
    let s := signBit d bits
    let e := exponentField d bits
    let m := mantissaField d bits
    if e = 0 then
      if m = 0 then { err := 0, tag := 0, sign := s, sig := 0, exp := 0 }
      else { err := 0, tag := 1, sign := s, sig := BitVec.ofNat _ m, exp := sext _ (1 - d.bias) }
    else if e = 2 ^ d.E - 1 ∧ d.hasInf = true ∧ m = 0 then
      { err := 0, tag := 2, sign := s, sig := 0, exp := 0 }
    else if e = 2 ^ d.E - 1 ∧ m ∈ nanCodes d then
      { err := 0, tag := 3, sign := 0, sig := 0, exp := 0 }
    else
      { err := 0, tag := 1, sign := s, sig := BitVec.ofNat _ (2 ^ d.M + m), exp := sext _ ((e : Int) - d.bias) }

/-- One evaluation: a value on the input port and the outputs driven for it, together, since nothing is stored in
between (00_scope.md R12, 10_state.md R19). -/
def State.evaluate (s : State) (b : BitVec s.inst.busw) (o : Outputs s.inst.desc) : State :=
  { inst := s.inst, bits := b, out := o }

/-- Driving the output ports for the value that is on the input port (00_scope.md R12, `port <- v`). -/
def State.drive (s : State) (o : Outputs s.inst.desc) : State :=
  s.evaluate s.bits o

/-- The host presents a value at the input port (45_external_interface.md R99, R101). The outputs are those of R83 for
it, as they are at any time for what the port holds (10_state.md R19, R26). -/
def State.present (s : State) (b : BitVec s.inst.busw) : State :=
  s.evaluate b (block s.inst b.toNat)

/-- The operation the input port selects now. -/
def State.selected (s : State) : Instr :=
  decodeInput s.inst s.bits

/-- The meaning every class row shares: where the row applies (the instance has the row's format and the operands are
of the row's class), it is the evaluation of the row's pattern, with the outputs of the four sub-blocks for its fields;
elsewhere it is no operation of the instance (30_encoding.md R48; log entry 8). DESIGN CHOICE: the pattern of the
operands is what the port then carries, also where the port carried another (log entry 20); a step never changes the
port. Safe. -/
def deliver (mnemonic : String) (f : FormatLabel) (c : Cls) (sg : Sign) (e m : Nat) (s : State) :
    Host.Outcome State Fault Refusal :=
  if formatOf s.inst.desc = some f ∧ classify s.inst.desc e m = c then
    .next (s.evaluate (BitVec.ofNat _ (pack s.inst.desc sg e m)) (assemble s.inst.desc c sg.bit e m))
  else .refused (.notThisRow mnemonic)

/-- The port image of a Decoded Value (10_state.md R24). DESIGN CHOICE: it is total; for a Finite value whose `sig` or
`exp` does not fit its port, where the spec's `zext` and `sext` are undefined, it wraps (log entries 16, 18). Safe: no
value that a descriptor allows is such a value. -/
def portImage (d : Descriptor) : DecodedValue → Outputs d
  | .zero s => { err := 0, tag := 0, sign := s.bit, sig := 0, exp := 0 }
  | .finite s sig exp => { err := 0, tag := 1, sign := s.bit, sig := zext _ sig, exp := sext _ exp }
  | .infinity s => { err := 0, tag := 2, sign := s.bit, sig := 0, exp := 0 }
  | .nan => { err := 0, tag := 3, sign := 0, sig := 0, exp := 0 }

/-- The Decoded Value that outputs with `err = 0` stand for, by tag (10_state.md R24, 30_encoding.md R44). DESIGN CHOICE:
it is total, and the spec gives it no meaning for `err = 1` (log entry 19); `State.result` never uses it there. Safe. -/
def readPorts {d : Descriptor} (o : Outputs d) : DecodedValue :=
  if o.tag = 0 then .zero (Sign.ofBit o.sign)
  else if o.tag = 1 then .finite (Sign.ofBit o.sign) o.sig.toNat o.exp.toInt
  else if o.tag = 2 then .infinity (Sign.ofBit o.sign)
  else .nan

/-- The result of the evaluation whose outputs the ports show: a Decoded Value, or the range violation with the
offending value, which is still on the input port, and never both (60_exceptions.md R109, R111). -/
def State.result (s : State) : Except Fault DecodedValue :=
  if s.out.err = 1 then .error (.rangeViolation s.bits.toNat) else .ok (readPorts s.out)

/-- The five ports as one vector, `err` first, the convention of the test vectors (30_encoding.md R43). -/
def bundle {d : Descriptor} (o : Outputs d) : BitVec (1 + 2 + 1 + (d.M + 1) + expw d) :=
  o.err ++ o.tag ++ o.sign ++ o.sig ++ o.exp

/-- Elaboration of an instance whose port has `upper` wires above the pattern, `BUSW = W + upper` (00_scope.md R9): an
invalid descriptor is the fatal configuration error and no instance exists (60_exceptions.md R110). The new instance's
outputs are those of the value its input port carries, which the host drives (10_state.md R26; log entry 7). DESIGN
CHOICE: an integer that the port cannot carry is cut to the wires there are (log entry 21). Safe. -/
def elaborate (r : RawDescriptor) (upper bits : Nat) : Host.Outcome State Fault Refusal :=
  match mkDescriptor r with
  | .error _ => .fault .configError
  | .ok d =>
    let u : Instance := { desc := d, busw := d.W + upper, fits := Nat.le_add_right d.W upper }
    let b : BitVec u.busw := BitVec.ofNat u.busw bits
    .next { inst := u, bits := b, out := block u b.toNat }

end Sys2Proof.Machine
end

