-- ==== Sys2Proof/Machine/E2m1.lean ====
section
/-!
DEFINITION. The class rows of E2M1 (44_formats.md R93), each over the shared form `deliver`.
-/

namespace Sys2Proof.Machine

/-- E2M1.ZERO: Zero(sign) (42_classify.md R71, 43_output_mux.md R85). -/
def execE2m1Zero (sg : Sign) (s : State) : Host.Outcome State Fault Refusal :=
  deliver "E2M1.ZERO" .e2m1 .zero sg 0 0 s

/-- E2M1.SUBNORMAL: Finite with `sig = m` and `exp = 1 - BIAS` (42_classify.md R72, 43_output_mux.md R85). -/
def execE2m1Subnormal (sg : Sign) (s : State) : Host.Outcome State Fault Refusal :=
  deliver "E2M1.SUBNORMAL" .e2m1 .subnormal sg 0 1 s

/-- E2M1.NORMAL: Finite with `sig = 2^M + m` and `exp = e - BIAS` (42_classify.md R75, 43_output_mux.md R85). -/
def execE2m1Normal (sg : Sign) (e : BitVec 2) (m : BitVec 1) (s : State) : Host.Outcome State Fault Refusal :=
  deliver "E2M1.NORMAL" .e2m1 .normal sg e.toNat m.toNat s

end Sys2Proof.Machine
end

