-- ==== Sys2Proof/Machine/E4m3.lean ====
section
/-!
DEFINITION. The class rows of E4M3 (44_formats.md R92), each over the shared form `deliver`.
-/

namespace Sys2Proof.Machine

/-- E4M3.ZERO: Zero(sign) (42_classify.md R71, 43_output_mux.md R85). -/
def execE4m3Zero (sg : Sign) (s : State) : Host.Outcome State Fault Refusal :=
  deliver "E4M3.ZERO" .e4m3 .zero sg 0 0 s

/-- E4M3.SUBNORMAL: Finite with `sig = m` and `exp = 1 - BIAS` (42_classify.md R72, 43_output_mux.md R85). -/
def execE4m3Subnormal (sg : Sign) (m : BitVec 3) (s : State) : Host.Outcome State Fault Refusal :=
  deliver "E4M3.SUBNORMAL" .e4m3 .subnormal sg 0 m.toNat s

/-- E4M3.NAN: NaN, whatever the sign bit (42_classify.md R74, 43_output_mux.md R85). -/
def execE4m3Nan (sg : Sign) (s : State) : Host.Outcome State Fault Refusal :=
  deliver "E4M3.NAN" .e4m3 .nan sg 15 7 s

/-- E4M3.NORMAL: Finite with `sig = 2^M + m` and `exp = e - BIAS` (42_classify.md R75, 43_output_mux.md R85). -/
def execE4m3Normal (sg : Sign) (e : BitVec 4) (m : BitVec 3) (s : State) : Host.Outcome State Fault Refusal :=
  deliver "E4M3.NORMAL" .e4m3 .normal sg e.toNat m.toNat s

end Sys2Proof.Machine
end

