-- ==== Sys2Proof/Machine/E5m2.lean ====
section
/-!
DEFINITION. The class rows of E5M2 (44_formats.md R91), each over the shared form `deliver`.
-/

namespace Sys2Proof.Machine

/-- E5M2.ZERO: Zero(sign) (42_classify.md R71, 43_output_mux.md R85). -/
def execE5m2Zero (sg : Sign) (s : State) : Host.Outcome State Fault Refusal :=
  deliver "E5M2.ZERO" .e5m2 .zero sg 0 0 s

/-- E5M2.SUBNORMAL: Finite with `sig = m` and `exp = 1 - BIAS` (42_classify.md R72, 43_output_mux.md R85). -/
def execE5m2Subnormal (sg : Sign) (m : BitVec 2) (s : State) : Host.Outcome State Fault Refusal :=
  deliver "E5M2.SUBNORMAL" .e5m2 .subnormal sg 0 m.toNat s

/-- E5M2.INF: Infinity(sign) (42_classify.md R73, 43_output_mux.md R85). -/
def execE5m2Inf (sg : Sign) (s : State) : Host.Outcome State Fault Refusal :=
  deliver "E5M2.INF" .e5m2 .inf sg 31 0 s

/-- E5M2.NAN: NaN, whatever the sign bit (42_classify.md R74, 43_output_mux.md R85). -/
def execE5m2Nan (sg : Sign) (m : BitVec 2) (s : State) : Host.Outcome State Fault Refusal :=
  deliver "E5M2.NAN" .e5m2 .nan sg 31 m.toNat s

/-- E5M2.NORMAL: Finite with `sig = 2^M + m` and `exp = e - BIAS` (42_classify.md R75, 43_output_mux.md R85). -/
def execE5m2Normal (sg : Sign) (e : BitVec 5) (m : BitVec 2) (s : State) : Host.Outcome State Fault Refusal :=
  deliver "E5M2.NORMAL" .e5m2 .normal sg e.toNat m.toNat s

end Sys2Proof.Machine
end

