-- ==== Sys2Proof/Machine/Generic.lean ====
section
/-!
DEFINITION. The generic operation DECODE (43_output_mux.md R83).
-/

namespace Sys2Proof.Machine

/-- DECODE of an integer on any instance: the evaluation of that value, with the outputs of the whole block, the range
violation among them. R83 is about the value on the port. DESIGN CHOICE (log entry 20): for an integer other than the one
the port carries, the host is taken to present it, so that the port, the outputs and the offending value of
`State.result` are always of one evaluation (60_exceptions.md R109); an integer that the port cannot carry has no
evaluation and is refused by name. Safe. A step meets neither case: it executes the operation of the value on the port. -/
def execDecode (bits : Nat) (s : State) : Host.Outcome State Fault Refusal :=
  if bits < 2 ^ s.inst.busw then .next (s.present (BitVec.ofNat _ bits)) else .refused (.widerThanPort bits)

end Sys2Proof.Machine
end

