-- ==== Sys2Proof/Machine/Dispatch.lean ====
section
/-!
DEFINITION. exec: one arm for each constructor of Instr, each one direct call of its meaning.
-/

namespace Sys2Proof.Machine

def exec (i : Instr) (s : State) : Host.Outcome State Fault Refusal :=
  match i with
  | .decode bits => Sys2Proof.Machine.execDecode bits s
  | .e5m2Zero sg => Sys2Proof.Machine.execE5m2Zero sg s
  | .e5m2Subnormal sg m => Sys2Proof.Machine.execE5m2Subnormal sg m s
  | .e5m2Inf sg => Sys2Proof.Machine.execE5m2Inf sg s
  | .e5m2Nan sg m => Sys2Proof.Machine.execE5m2Nan sg m s
  | .e5m2Normal sg e m => Sys2Proof.Machine.execE5m2Normal sg e m s
  | .e4m3Zero sg => Sys2Proof.Machine.execE4m3Zero sg s
  | .e4m3Subnormal sg m => Sys2Proof.Machine.execE4m3Subnormal sg m s
  | .e4m3Nan sg => Sys2Proof.Machine.execE4m3Nan sg s
  | .e4m3Normal sg e m => Sys2Proof.Machine.execE4m3Normal sg e m s
  | .e2m1Zero sg => Sys2Proof.Machine.execE2m1Zero sg s
  | .e2m1Subnormal sg => Sys2Proof.Machine.execE2m1Subnormal sg s
  | .e2m1Normal sg e m => Sys2Proof.Machine.execE2m1Normal sg e m s

end Sys2Proof.Machine
end

