-- ==== Sys2Proof/Machine/Step.lean ====
section
/-!
DEFINITION. One step is one evaluation of the value the input port carries (00_scope.md R12, 10_state.md R13). Nothing
is fetched and nothing is sequenced (10_state.md R21), so a step keeps the input, and the host may present another.
-/

namespace Sys2Proof.Machine

def step (s : State) : Host.Outcome State Fault Refusal :=
  exec s.selected s

/-- The same state with a word of the table at the input port of the instance the word is read on (log entries 9, 10).
The instance changes because a word carries no format; the outputs are those of the word, because they are so for
whatever the port holds (10_state.md R26). Nothing else is in a state, so nothing of the state before is left. DESIGN CHOICE: a
number that the port cannot carry, which is no word of that length, is cut to the wires there are (log entry 21). Safe. -/
def State.withFetchWord (_s : State) (nbits w : Nat) : State :=
  { inst := tableInstance nbits
    bits := BitVec.ofNat _ w
    out := block (tableInstance nbits) (BitVec.ofNat (tableInstance nbits).busw w).toNat }

end Sys2Proof.Machine
end

