-- ==== Sys2Proof/Machine/Bench.lean ====
section
/-!
DEFINITION. The external collaborators of 45_external_interface.md as a test bench: the enumeration driver, the
Reference Entry, the canonical rendering and the summary. They are outside the block (00_scope.md R6, R98) and nothing
of the machine depends on them (log entry 15).
-/

namespace Sys2Proof.Machine

/-- The Decoded Value of a pattern on the instance with `BUSW = W`, which cannot see a range violation (R101). DESIGN
CHOICE: it is total; of an integer of `2^W` or more, which the driver never produces and which has no Decoded Value, it
reads the free values on the ports (log entry 22). Unsafe for a claim about such an integer. -/
def decodePattern (d : Descriptor) (p : Nat) : DecodedValue :=
  readPorts (block (defaultInstance d) p)

/-- The driver's inputs: every integer of `[0, 2^W)`, ascending (R100, R101). -/
def driverInputs (d : Descriptor) : List Nat :=
  List.range (2 ^ d.W)

/-- The `W` characters of a pattern, bit `W-1` first (R103). DESIGN CHOICE: it is total; of an integer of `2^W` or more,
which has no entry, it drops the upper bits (log entry 22). Unsafe for a claim about such an integer. -/
def binaryDigits : Nat → Nat → List Char
  | 0, _ => []
  | w + 1, p => (if p.testBit w then '1' else '0') :: binaryDigits w p

/-- Trailing decimal zeros moved into the scale, at most `fuel` of them. -/
def stripZeros : Nat → Nat → Int → Nat × Int
  | 0, n, k => (n, k)
  | fuel + 1, n, k => if n ≠ 0 ∧ n % 10 = 0 then stripZeros fuel (n / 10) (k + 1) else (n, k)

/-- The exact decimal expansion of `sig * 2^k` as digits and a power of ten, with no trailing zero: the digits of the
shortest round-trip string for the configured formats (R104). -/
def exactDecimal (sig : Nat) (k : Int) : Nat × Int :=
  if 0 ≤ k then stripZeros (sig * 2 ^ k.toNat) (sig * 2 ^ k.toNat) 0
  else stripZeros (sig * 5 ^ (-k).toNat) (sig * 5 ^ (-k).toNat) k

/-- The magnitude of a Finite value in the serializer's notation, which the source leaves open (R104, D22). -/
def finiteText (d : Descriptor) (sig : Nat) (exp : Int) : String :=
  let x := exactDecimal sig (exp - (d.M : Int))
  Config.decimalText x.1 x.2

/-- Canonical rendering (R104). -/
def render (d : Descriptor) : DecodedValue → String
  | .zero .plus => "0"
  | .zero .minus => "-0"
  | .infinity .plus => "Infinity"
  | .infinity .minus => "-Infinity"
  | .nan => "NaN"
  | .finite .plus sig exp => finiteText d sig exp
  | .finite .minus sig exp => "-" ++ finiteText d sig exp

/-- A Reference Entry (R103). -/
structure ReferenceEntry where
  bits : Nat
  binary : String
  decimal : String
deriving DecidableEq, Repr

/-- The entry of one pattern (R103). DESIGN CHOICE: it is total, and the spec has no entry for an integer of `2^W` or more
(log entry 22). Unsafe for a claim about such an integer. -/
def referenceEntry (d : Descriptor) (p : Nat) : ReferenceEntry :=
  { bits := p, binary := String.ofList (binaryDigits d.W p), decimal := render d (decodePattern d p) }

/-- The persisted sequence of a format, in ascending order (R105). The format's key is not in the source (N4). -/
def referenceTable (d : Descriptor) : List ReferenceEntry :=
  (driverInputs d).map (referenceEntry d)

/-- The counts of the human-readable summary (R106). -/
structure Summary where
  entries : Nat
  nans : Nat
  infinities : Nat
deriving DecidableEq, Repr

/-- One format's counts (R106). An entry's decimal contains "Infinity" exactly when its Decoded Value is one. -/
def summary (d : Descriptor) : Summary :=
  let vs := (driverInputs d).map (decodePattern d)
  { entries := vs.length
    nans := vs.countP fun v => v == .nan
    infinities := vs.countP fun v => v == .infinity .plus || v == .infinity .minus }

/-- The first four entries the summary shows, in `binary → decimal` form (R106). The text layout is not in the source.
DESIGN CHOICE: a format with fewer than four patterns shows those it has (log entry 22). -/
def summaryHead (d : Descriptor) : List (String × String) :=
  ((referenceTable d).take 4).map fun e => (e.binary, e.decimal)

/-- The last four entries the summary shows (R106). DESIGN CHOICE: a format with fewer than four patterns shows those it
has (log entry 22). -/
def summaryTail (d : Descriptor) : List (String × String) :=
  ((referenceTable d).drop (2 ^ d.W - 4)).map fun e => (e.binary, e.decimal)

end Sys2Proof.Machine
end

