-- ==== Sys2Proof/Machine/Value.lean ====
section
/-!
DEFINITION. The numeric meaning of the outputs (43_output_mux.md R84): a function of the spec, not a port.
-/

namespace Sys2Proof.Machine

/-- The rationals extended with signed zeros, infinities and NaN: infinity is not a rational and NaN is no value (R84). -/
inductive ExtValue where
  | zero (s : Sign)
  | number (q : ℚ)
  | infinity (s : Sign)
  | nan
deriving DecidableEq, Repr

/-- `sig * 2^(exp - M)`, the magnitude of a Finite result (41_bias_exponent.md R69); 0 for the other results, whose payload
is 0. No meaning of the spec's for `err = 1` (log entry 19). -/
def magnitude {d : Descriptor} (o : Outputs d) : ℚ :=
  (o.sig.toNat : ℚ) * (2 : ℚ) ^ (o.exp.toInt - (d.M : Int))

/-- `val`, by tag; for outputs with `err = 0` (R84). DESIGN CHOICE: it is total, and the spec gives it no meaning for
`err = 1` (log entry 19). Safe. -/
def val {d : Descriptor} (o : Outputs d) : ExtValue :=
  if o.tag = 0 then .zero (Sign.ofBit o.sign)
  else if o.tag = 1 then .number ((signVal o.sign : ℚ) * magnitude o)
  else if o.tag = 2 then .infinity (Sign.ofBit o.sign)
  else .nan

/-- What a numeric comparison sees: a rational where there is one. Both zeros are numerically 0, though they are
different results (42_classify.md R71). -/
def ExtValue.numeric : ExtValue → Option ℚ
  | .zero _ => some 0
  | .number q => some q
  | .infinity _ => none
  | .nan => none

end Sys2Proof.Machine
end

