-- ==== Sys2Proof/Safety.lean ====
section
/-!
DEFINITION. What the claims call a good state: outputs that are the image of a result the descriptor can give, and
outputs that are those of the present input; and the sequences of evaluations a host can make.
-/

namespace Sys2Proof.Machine

/-- The Decoded Values a descriptor allows: a Finite significand fits `M + 1` bits and is not 0, its exponent is one the
bias subtractor gives; infinity needs HAS_INF, NaN needs a code, both a nonzero exponent field (10_state.md R24,
41_bias_exponent.md R66, 42_classify.md R77). -/
def Allows (d : Descriptor) : DecodedValue → Prop
  | .zero _ => True
  | .finite _ sig exp => 1 ≤ sig ∧ sig < 2 ^ (d.M + 1) ∧ minExp d ≤ exp ∧ exp ≤ maxExp d
  | .infinity _ => 1 ≤ d.E ∧ d.hasInf = true
  | .nan => 1 ≤ d.E ∧ ∃ c ∈ nanCodes d, ¬(d.hasInf = true ∧ c = 0)

/-- Outputs that show the violation, or that are the port image of an allowed Decoded Value. -/
def Canonical {d : Descriptor} (o : Outputs d) : Prop :=
  o.err = 1 ∨ ∃ v, Allows d v ∧ o = portImage d v

/-- The invariant of every step: the ports never show anything else (10_state.md R24). -/
def State.Inv (s : State) : Prop :=
  Canonical s.out

/-- The ports show the outputs of the value now on the input port (70_reset_and_hazards.md R128). -/
def State.Settled (s : State) : Prop :=
  s.out = block s.inst s.bits.toNat

/-- The state after the evaluation of an operation whose result is `v`: the operation's value on the input port, and the
port image of `v` on the outputs. -/
def State.showing (s : State) (i : Instr) (v : DecodedValue) : State :=
  s.evaluate (BitVec.ofNat _ (encode i)) (portImage s.inst.desc v)

/-- The host keeps its part of the contract: the input is a pattern (45_external_interface.md R99). -/
def State.InRange (s : State) : Prop :=
  s.bits.toNat < 2 ^ s.inst.desc.W

/-- One evaluation after another: the host presents each integer in turn, on the wires the port has, and lets the block
evaluate it (45_external_interface.md R99, R101; 20_memory.md R34). DESIGN CHOICE: an integer that the port cannot carry
is cut to the wires there are (log entry 21). Safe. -/
def State.evaluations (s : State) : List Nat → State
  | [] => s
  | n :: ns =>
    match step (s.present (BitVec.ofNat _ n)) with
    | .next t => t.evaluations ns
    | _ => s

end Sys2Proof.Machine
end

