-- ==== Sys2Proof/Certificates/Slice0/Obligations.lean ====
section
/-!
DEFINITION. The statements for the provers, in the order of the spec's files.
-/

open Sys2Proof Sys2Proof.Machine

/-! ### The descriptor (00_scope.md, 10_state.md, 60_exceptions.md) -/

/-- R17: a descriptor is made exactly from valid fields, and keeps every one of them. -/
def Obligations.DescriptorIsMadeExactlyFromValidFields : Prop :=
  ∀ r : RawDescriptor,
    ((∃ d, mkDescriptor r = .ok d) ↔ 1 ≤ r.W ∧ 0 ≤ r.E ∧ 0 ≤ r.M ∧ 1 + r.E + r.M = r.W) ∧
      ∀ d, mkDescriptor r = .ok d →
        (d.W : Int) = r.W ∧ (d.E : Int) = r.E ∧ (d.M : Int) = r.M ∧ d.bias = r.bias ∧ d.hasInf = r.hasInf ∧
          ∀ c, d.nanMask.getLsbD c = r.nanMask.getLsbD c

/-- R110: invalid fields end in the configuration error and no instance exists; valid fields give an instance with
that descriptor, a port of the chosen width, and outputs that are those of its input (R26). The form of elaboration as
an operation of the integrator is the model's (log entry 7). -/
def Obligations.InvalidDescriptorYieldsNoInstance : Prop :=
  ∀ (r : RawDescriptor) (upper bits : Nat),
    (¬(1 ≤ r.W ∧ 0 ≤ r.E ∧ 0 ≤ r.M ∧ 1 + r.E + r.M = r.W) → elaborate r upper bits = .fault .configError) ∧
      (1 ≤ r.W ∧ 0 ≤ r.E ∧ 0 ≤ r.M ∧ 1 + r.E + r.M = r.W →
        ∃ t, elaborate r upper bits = .next t ∧ mkDescriptor r = .ok t.inst.desc ∧
          t.inst.busw = t.inst.desc.W + upper ∧ t.Settled)

/-- R16: bit `c` of the mask is set exactly for the listed codes below `2^M`. That a listed code outside is dropped is the
model's choice (log entry 22). -/
def Obligations.NanMaskHoldsExactlyTheListedCodes : Prop :=
  ∀ (M : Nat) (codes : List Nat) (c : Nat),
    (nanMaskOf M codes).getLsbD c = true ↔ c < 2 ^ M ∧ c ∈ codes

/-- R9: `EXPW` is the least width, at least 1, that holds `1 - BIAS` and the largest difference, which is
`2^E - 1 - BIAS`, and `1 - BIAS` itself when `E = 0`. -/
def Obligations.ExponentPortWidthIsTheLeastThatFits : Prop :=
  ∀ (d : Descriptor) (n : Nat), 1 ≤ n →
    1 ≤ expw d ∧
      (expw d ≤ n ↔
        -(2 ^ (n - 1)) ≤ 1 - d.bias ∧
          (if d.E = 0 then 1 - d.bias else 2 ^ d.E - 1 - d.bias) ≤ (2 ^ (n - 1) - 1 : Int))

/-! ### The field extractor (40_extract.md) -/

/-- R59: the fields lose nothing, are in range, come from exactly one pattern, and a flip of the sign bit flips
`sign_bit` alone. -/
def Obligations.FieldsLoseNothing : Prop :=
  ∀ d : Descriptor,
    (∀ p, p < 2 ^ d.W →
      p = (signBit d p).toNat * 2 ^ (d.W - 1) + exponentField d p * 2 ^ d.M + mantissaField d p ∧
        exponentField d p < 2 ^ d.E ∧ mantissaField d p < 2 ^ d.M ∧
        signBit d (p ^^^ 2 ^ (d.W - 1)) = ~~~(signBit d p) ∧
        exponentField d (p ^^^ 2 ^ (d.W - 1)) = exponentField d p ∧
        mantissaField d (p ^^^ 2 ^ (d.W - 1)) = mantissaField d p) ∧
      ∀ (s : Bit) (e m : Nat), e < 2 ^ d.E → m < 2 ^ d.M →
        ∃ p, (p < 2 ^ d.W ∧ signBit d p = s ∧ exponentField d p = e ∧ mantissaField d p = m) ∧
          ∀ q, q < 2 ^ d.W → signBit d q = s → exponentField d q = e → mantissaField d q = m → q = p

/-- R41, R55 to R57: the fields are the wires `W-1`, `W-2` to `M`, and `M-1` to `0` of the port, whatever the wires
above carry; a field of no wires is 0. -/
def Obligations.FieldsAreSlicesOfThePort : Prop :=
  ∀ (u : Instance) (b : BitVec u.busw),
    (∀ i, signBit u.desc b.toNat = BitVec.ofBool (b.getLsbD (u.desc.W - 1)) ∧
      (exponentField u.desc b.toNat).testBit i = (decide (i < u.desc.E) && b.getLsbD (u.desc.M + i)) ∧
      (mantissaField u.desc b.toNat).testBit i = (decide (i < u.desc.M) && b.getLsbD i)) ∧
      (u.desc.E = 0 → exponentField u.desc b.toNat = 0) ∧ (u.desc.M = 0 → mantissaField u.desc b.toNat = 0)

/-! ### The bias subtractor and significand (41_bias_exponent.md) -/

/-- R63: `sig_raw` is `hidden * 2^M + mantissa_field` with nothing cut off, and its ranges by class. -/
def Obligations.SignificandIsExact : Prop :=
  ∀ (d : Descriptor) (e m : Nat), m < 2 ^ d.M →
    (sigRaw d e m).toNat = hiddenBit e * 2 ^ d.M + m ∧
      ((sigRaw d e m).toNat = 0 ↔ e = 0 ∧ m = 0) ∧ ((sigRaw d e m).toNat = 0 ↔ classify d e m = .zero) ∧
      (e = 0 → m ≠ 0 → 1 ≤ (sigRaw d e m).toNat ∧ (sigRaw d e m).toNat ≤ 2 ^ d.M - 1) ∧
      (e ≠ 0 → 2 ^ d.M ≤ (sigRaw d e m).toNat ∧ (sigRaw d e m).toNat ≤ 2 ^ (d.M + 1) - 1) ∧
      (d.M = 0 → (sigRaw d e m).toNat = hiddenBit e)

/-- R62, R64: an exponent field 0 has hidden bit 0 and effective exponent 1, any other has hidden bit 1 and is its own
effective exponent; the range of `e_eff`. -/
def Obligations.HiddenBitAndEffectiveExponent : Prop :=
  hiddenBit 0 = 0 ∧ eEff 0 = 1 ∧ (∀ e, e ≠ 0 → hiddenBit e = 1 ∧ eEff e = e) ∧
    ∀ (d : Descriptor) (e : Nat), e < 2 ^ d.E → 1 ≤ eEff e ∧ eEff e ≤ max 1 (2 ^ d.E - 1)

/-- R65, R66 (b): the bias subtraction always fits the port: no wrap-around, for any pattern and descriptor. -/
def Obligations.BiasSubtractionNeverOverflows : Prop :=
  ∀ (d : Descriptor) (e : Nat), e < 2 ^ d.E →
    (expRaw d e).toInt = (if e = 0 then 1 else (e : Int)) - d.bias

/-! ### The classifier (42_classify.md) -/

/-- R47, R70 to R75: the condition of each class. -/
def Obligations.EachClassHasItsCondition : Prop :=
  ∀ (d : Descriptor) (e m : Nat),
    (classify d e m = .zero ↔ e = 0 ∧ m = 0) ∧
    (classify d e m = .subnormal ↔ e = 0 ∧ m ≠ 0) ∧
    (classify d e m = .inf ↔ e ≠ 0 ∧ e = 2 ^ d.E - 1 ∧ d.hasInf = true ∧ m = 0) ∧
    (classify d e m = .nan ↔
      e ≠ 0 ∧ e = 2 ^ d.E - 1 ∧ ¬(d.hasInf = true ∧ m = 0) ∧ m ∈ nanCodes d) ∧
    (classify d e m = .normal ↔
      e ≠ 0 ∧ ¬(e = 2 ^ d.E - 1 ∧ (d.hasInf = true ∧ m = 0 ∨ m ∈ nanCodes d)))

/-- R76: the source's guard of step 4, put back in front of both tests, changes no class. -/
def Obligations.GuardOfStepFourAddsNothing : Prop :=
  ∀ (d : Descriptor) (e m : Nat),
    classify d e m =
      if e = 0 then (if m = 0 then .zero else .subnormal)
      else if e = 2 ^ d.E - 1 ∧ (d.hasInf = true ∨ nanCodes d ≠ []) then
        (if d.hasInf = true ∧ m = 0 then .inf else if m ∈ nanCodes d then .nan else .normal)
      else .normal

/-- R71: exactly the patterns 0 and `2^(W-1)` are in class ZERO, for every descriptor. -/
def Obligations.ExactlyTwoPatternsAreZero : Prop :=
  ∀ (d : Descriptor) (p : Nat), p < 2 ^ d.W →
    (classify d (exponentField d p) (mantissaField d p) = .zero ↔ p = 0 ∨ p = 2 ^ (d.W - 1))

/-- R77: which classes a descriptor reaches. -/
def Obligations.ReachableClasses : Prop :=
  ∀ d : Descriptor,
    (∃ p, p < 2 ^ d.W ∧ classify d (exponentField d p) (mantissaField d p) = .zero) ∧
    ((∃ p, p < 2 ^ d.W ∧ classify d (exponentField d p) (mantissaField d p) = .subnormal) ↔ 1 ≤ d.M) ∧
    ((∃ p, p < 2 ^ d.W ∧ classify d (exponentField d p) (mantissaField d p) = .inf) ↔
      d.hasInf = true ∧ 1 ≤ d.E) ∧
    ((∃ p, p < 2 ^ d.W ∧ classify d (exponentField d p) (mantissaField d p) = .nan) ↔
      1 ≤ d.E ∧ ∃ c ∈ nanCodes d, ¬(d.hasInf = true ∧ c = 0))

/-- R77, R91 to R93: how many patterns each class has in the three configured formats. -/
def Obligations.ClassCountsOfTheConfiguredFormats : Prop :=
  let count (d : Descriptor) (c : Cls) :=
    (List.range (2 ^ d.W)).countP fun p => classify d (exponentField d p) (mantissaField d p) == c
  ([Cls.zero, .subnormal, .inf, .nan, .normal].map (count e5m2) = [2, 6, 2, 6, 240]) ∧
    ([Cls.zero, .subnormal, .inf, .nan, .normal].map (count e4m3) = [2, 14, 0, 2, 238]) ∧
    ([Cls.zero, .subnormal, .inf, .nan, .normal].map (count e2m1) = [2, 2, 0, 0, 12])

/-- R78: no exponent bits: ZERO or SUBNORMAL whatever the policy; one exponent bit: field 1 is the max exponent; no
mantissa bits: never SUBNORMAL, and the max exponent is Infinity, else NaN, else an ordinary number with
significand 1; one bit in all: the two zeros. -/
def Obligations.DegenerateWidths : Prop :=
  ∀ (u : Instance) (p : Nat), p < 2 ^ u.desc.W →
    let d := u.desc
    let e := exponentField d p
    let m := mantissaField d p
    (d.E = 0 → classify d e m = if m = 0 then .zero else .subnormal) ∧
    (d.E = 1 → e ≠ 0 →
      classify d e m = if d.hasInf = true ∧ m = 0 then .inf else if m ∈ nanCodes d then .nan else .normal) ∧
    (d.M = 0 → classify d e m ≠ .subnormal ∧
      (1 ≤ d.E → e = 2 ^ d.E - 1 →
        classify d e m = if d.hasInf = true then .inf else if 0 ∈ nanCodes d then .nan else .normal) ∧
      (classify d e m = .normal → (block u p).sig.toNat = 1)) ∧
    (d.W = 1 → (p = 0 → block u p = portImage d (.zero .plus)) ∧ (p = 1 → block u p = portImage d (.zero .minus)))

/-! ### The mux and the whole block (43_output_mux.md) -/

/-- R24, R44: on the results a descriptor allows, the port image and the reading of the ports are inverse, both
ways, so that a bundle with `err = 0` that the block can show stands for exactly one Decoded Value. -/
def Obligations.PortImageIsABijection : Prop :=
  ∀ d : Descriptor,
    (∀ v, Allows d v → readPorts (portImage d v) = v) ∧
      ∀ o : Outputs d, Canonical o → o.err = 0 → Allows d (readPorts o) ∧ portImage d (readPorts o) = o

/-- R83, R85: DECODE of a pattern, on every instance, drives the port image of the result of the spec's five arms for
it. That the pattern is then the one on the port, where the port carried another, is the model's choice (log entry 20). -/
def Obligations.DecodeOfAPatternFollowsTheFiveArms : Prop :=
  ∀ (s : State) (b : Nat), b < 2 ^ s.inst.desc.W →
    let d := s.inst.desc
    let sg := if b / 2 ^ (d.W - 1) = 1 then Sign.minus else Sign.plus
    let e := b / 2 ^ d.M % 2 ^ d.E
    let m := b % 2 ^ d.M
    exec (.decode b) s = .next (s.showing (.decode b) (
      if e = 0 then
        if m = 0 then .zero sg else .finite sg m (1 - d.bias)
      else if e = 2 ^ d.E - 1 ∧ d.hasInf = true ∧ m = 0 then .infinity sg
      else if e = 2 ^ d.E - 1 ∧ m ∈ nanCodes d then .nan
      else .finite sg (2 ^ d.M + m) (e - d.bias)))

/-- R83, R111: DECODE of an integer outside the format that the port carries, on every instance, completes with
`err = 1`; the four other ports hold the free values. One that the port cannot carry (R18) has no evaluation. That the
first is a next state, the free values, that the integer is then the one on the port, and the refusal of the second are
the model's (log entries 5, 6, 20). -/
def Obligations.DecodeOutOfRangeRaisesErr : Prop :=
  ∀ (s : State) (b : Nat), 2 ^ s.inst.desc.W ≤ b →
    (b < 2 ^ s.inst.busw →
      ∃ o : Outputs s.inst.desc, exec (.decode b) s = .next (s.evaluate (BitVec.ofNat _ b) o) ∧ o.err = 1 ∧
        o.tag = Config.freeTag s.inst b ∧ o.sign = Config.freeSign s.inst b ∧
        o.sig = Config.freeSig s.inst b _ ∧ o.exp = Config.freeExp s.inst b _) ∧
      (2 ^ s.inst.busw ≤ b → exec (.decode b) s = .refused (.widerThanPort b))

/-- R83, last sentence: the block is equal, output for output, to the composition of the sub-blocks. -/
def Obligations.BlockIsTheCompositionOfTheSubBlocks : Prop :=
  ∀ (u : Instance) (p : Nat), p < 2 ^ u.desc.W → block u p = composition u.desc p

/-- R13, R83, R131: from every state, one step completes and drives the outputs of the whole block for the value on
the input port: the rows of the table and the block are the same function. That a step on an out-of-range input
completes in a next state is the model's choice (log entry 5; R111 asks for a fault outcome, which is the result of that
state), and so is which row such an input or an unconfigured descriptor selects (log entry 14). -/
def Obligations.StepIsTheWholeBlock : Prop :=
  ∀ s : State, step s = .next (s.drive (block s.inst s.bits.toNat))

/-- R80 to R82: the ports the block drives for each class: the tag; the pattern's sign but 0 for NaN; the subtractor's
payload for a Finite result and 0 otherwise; a Finite result has `sig ≥ 1`, and `sig < 2^M` exactly for SUBNORMAL. -/
def Obligations.BlockDrivesThePortsOfTheMux : Prop :=
  ∀ (u : Instance) (p : Nat), p < 2 ^ u.desc.W →
    let d := u.desc
    let e := exponentField d p
    let m := mantissaField d p
    let c := classify d e m
    let o := block u p
    (o.tag = match c with | .zero => 0b00 | .subnormal => 0b01 | .normal => 0b01 | .inf => 0b10 | .nan => 0b11) ∧
      (o.sign = if c = .nan then 0 else signBit d p) ∧
      (o.sig = if c = .subnormal ∨ c = .normal then sigRaw d e m else 0) ∧
      (o.exp = if c = .subnormal ∨ c = .normal then expRaw d e else 0) ∧
      (o.tag = 1 → 1 ≤ o.sig.toNat ∧ (o.sig.toNat < 2 ^ d.M ↔ c = .subnormal))

/-- R86: sign symmetry. -/
def Obligations.SignBitChangesTheSignOnly : Prop :=
  ∀ (u : Instance) (p : Nat), p < 2 ^ u.desc.W →
    let o := block u p
    let o' := block u (p ^^^ 2 ^ (u.desc.W - 1))
    o'.tag = o.tag ∧ o'.sig = o.sig ∧ o'.exp = o.exp ∧
      (o.tag ≠ 3 → o'.sign = ~~~o.sign) ∧ (o.tag = 3 → o.sign = 0 ∧ o'.sign = 0)

/-- R67, R68, R84, R85: the value of the outputs is the source's formula of the pattern's class. -/
def Obligations.ValueIsTheSourcesFormula : Prop :=
  ∀ (u : Instance) (p : Nat), p < 2 ^ u.desc.W →
    let d := u.desc
    let e := exponentField d p
    let m := mantissaField d p
    let sv : ℚ := signVal (signBit d p)
    (classify d e m = .zero → val (block u p) = .zero (Sign.ofBit (signBit d p))) ∧
    (classify d e m = .subnormal → val (block u p) = .number (sv * m * 2 ^ (1 - d.bias - d.M : Int))) ∧
    (classify d e m = .inf → val (block u p) = .infinity (Sign.ofBit (signBit d p))) ∧
    (classify d e m = .nan → val (block u p) = .nan) ∧
    (classify d e m = .normal →
      val (block u p) = .number (sv * (1 + (m : ℚ) / 2 ^ d.M) * 2 ^ ((e : Int) - d.bias)))

/-- R69 (b): for a fixed sign, magnitudes are strictly increasing in the unsigned exponent and mantissa bits over the
patterns whose result is Zero or Finite. -/
def Obligations.FiniteMagnitudesAreStrictlyIncreasing : Prop :=
  ∀ (u : Instance) (p q : Nat), p < q → q < 2 ^ u.desc.W → p / 2 ^ (u.desc.W - 1) = q / 2 ^ (u.desc.W - 1) →
    ((block u p).tag = 0 ∨ (block u p).tag = 1) → ((block u q).tag = 0 ∨ (block u q).tag = 1) →
    magnitude (block u p) < magnitude (block u q)

/-- R69 (c), R87: two patterns with the same outputs are the same pattern, or are both NaN. -/
def Obligations.OutputsDetermineThePatternUnlessNan : Prop :=
  ∀ (u : Instance) (p q : Nat), p < 2 ^ u.desc.W → q < 2 ^ u.desc.W → block u p = block u q →
    p = q ∨ (block u p).tag = 3 ∧ (block u q).tag = 3

/-! ### The rows of the table (30_encoding.md, 44_formats.md) -/

/-- R71: the ZERO rows of the three formats complete with Zero(sign). The row's pattern is then on the port (log entry
20). -/
def Obligations.ZeroRowsGiveTheSignedZero : Prop :=
  ∀ (s : State) (sg : Sign),
    (s.inst.desc = e5m2 → exec (.e5m2Zero sg) s = .next (s.showing (.e5m2Zero sg) (.zero sg))) ∧
    (s.inst.desc = e4m3 → exec (.e4m3Zero sg) s = .next (s.showing (.e4m3Zero sg) (.zero sg))) ∧
    (s.inst.desc = e2m1 → exec (.e2m1Zero sg) s = .next (s.showing (.e2m1Zero sg) (.zero sg)))

/-- R72: the SUBNORMAL rows complete with `sig = m` and `exp = 1 - BIAS`: -14, -6 and 0 (the biases by log
entry 11). The row's pattern is then on the port (log entry 20). -/
def Obligations.SubnormalRowsGiveTheirFiniteValue : Prop :=
  ∀ (s : State) (sg : Sign),
    (∀ m, m ≠ 0 → s.inst.desc = e5m2 →
      exec (.e5m2Subnormal sg m) s = .next (s.showing (.e5m2Subnormal sg m) (.finite sg m.toNat (-14)))) ∧
    (∀ m, m ≠ 0 → s.inst.desc = e4m3 →
      exec (.e4m3Subnormal sg m) s = .next (s.showing (.e4m3Subnormal sg m) (.finite sg m.toNat (-6)))) ∧
    (s.inst.desc = e2m1 →
      exec (.e2m1Subnormal sg) s = .next (s.showing (.e2m1Subnormal sg) (.finite sg 1 0)))

/-- R73, R74: the INF row completes with Infinity(sign), the NAN rows with NaN, both signs alike. The row's
pattern is then on the port (log entry 20). -/
def Obligations.SpecialRowsGiveInfinityAndNan : Prop :=
  ∀ (s : State) (sg : Sign),
    (s.inst.desc = e5m2 → exec (.e5m2Inf sg) s = .next (s.showing (.e5m2Inf sg) (.infinity sg))) ∧
    (∀ m, m ≠ 0 → s.inst.desc = e5m2 →
      exec (.e5m2Nan sg m) s = .next (s.showing (.e5m2Nan sg m) .nan)) ∧
    (s.inst.desc = e4m3 → exec (.e4m3Nan sg) s = .next (s.showing (.e4m3Nan sg) .nan))

/-- R75: the NORMAL rows complete with `sig = 2^M + m` and `exp = e - BIAS`, the max exponent of E4M3 below its one NaN
code and that of E2M1 included (the biases by log entry 11). The row's pattern is then on the port (log entry 20). -/
def Obligations.NormalRowsGiveTheirFiniteValue : Prop :=
  ∀ (s : State) (sg : Sign),
    (∀ e m, e ≠ 0 → e ≠ 31 → s.inst.desc = e5m2 →
      exec (.e5m2Normal sg e m) s =
        .next (s.showing (.e5m2Normal sg e m) (.finite sg (4 + m.toNat) (e.toNat - 15)))) ∧
    (∀ e m, e ≠ 0 → ¬(e = 15 ∧ m = 7) → s.inst.desc = e4m3 →
      exec (.e4m3Normal sg e m) s =
        .next (s.showing (.e4m3Normal sg e m) (.finite sg (8 + m.toNat) (e.toNat - 7)))) ∧
    (∀ e m, e ≠ 0 → s.inst.desc = e2m1 →
      exec (.e2m1Normal sg e m) s =
        .next (s.showing (.e2m1Normal sg e m) (.finite sg (2 + m.toNat) (e.toNat - 1))))

/-- The model's choice of log entries 8 and 20: a class row completes exactly on an instance of its format and with
operands of its class, as the evaluation of its pattern; elsewhere it is refused by name and has no effect. -/
def Obligations.ClassRowsRunExactlyWhereTheyApply : Prop :=
  ∀ (i : Instr) (f : FormatLabel) (s : State), i.format = some f →
    (i.wellFormedOn s.inst = true → ∃ o, exec i s = .next (s.evaluate (BitVec.ofNat _ (encode i)) o)) ∧
      (i.wellFormedOn s.inst = false → ∃ mn, exec i s = .refused (.notThisRow mn))

/-- The frame of every operation (R13, R15, R27): the instance stays; the input port carries the operation's value, and
so what it carried before wherever that is the value it carried; only the outputs change beside it. That executing an
operation puts its value on the port is the model's choice (log entry 20); the outputs are a field by log entry 4. -/
def Obligations.OperationsChangeOnlyTheOutputs : Prop :=
  ∀ (i : Instr) (s t : State), exec i s = .next t →
    t.inst = s.inst ∧ t.bits.toNat = encode i ∧ (∃ o, t = s.evaluate (BitVec.ofNat _ (encode i)) o) ∧
      (encode i = s.bits.toNat → ∃ o, t = s.drive o)

/-! ### Decoding (30_encoding.md) -/

/-- One step runs the operation decoded from the value on the input port, and adds nothing around it; so does the
step after a word of the table is placed there (log entries 9, 10: the instance a word is read on is the model's). -/
def Obligations.StepRunsTheDecodedOperation : Prop :=
  (∀ (s : State) (i : Instr), decodeInteger s.inst s.bits.toNat = .ok i → step s = exec i s) ∧
    ∀ (s : State) (nbits w : Nat) (i : Instr), decodeTableWord nbits w = some i →
      step (s.withFetchWord nbits w) = exec i (s.withFetchWord nbits w)

/-- R48, R50: every value on a port selects an operation the instance has, with operands of its row. That
the generic DECODE is selected for a descriptor without rows and for an out-of-range input is the model's choice (log
entry 14). -/
def Obligations.DecoderAnswersWellFormedOperations : Prop :=
  ∀ (u : Instance) (b : BitVec u.busw), (decodeInput u b).wellFormedOn u = true

/-- Decoding the encoding of any operation an instance has gives it back, with every operand. Which inputs are the generic
DECODE's is the model's choice (log entry 14). -/
def Obligations.DecodeOfEncodeIsTheOperation : Prop :=
  ∀ (u : Instance) (i : Instr), i.wellFormedOn u = true → decodeInput u (BitVec.ofNat u.busw (encode i)) = i

/-- R51: no bit of the input is ignored: encoding what was decoded gives the value on the port back. The generic
DECODE carries the value itself (the model's choice, log entry 14). -/
def Obligations.EncodeOfDecodeIsTheInput : Prop :=
  ∀ (u : Instance) (b : BitVec u.busw), encode (decodeInput u b) = b.toNat

/-- R42 and the table: words written out bit by bit decode to the operation they stand for (a word of 8 bits is read on
E5M2 by log entry 9). -/
def Obligations.TableWordsDecode : Prop :=
  decodeTableWord 8 0b01111100 = some (.e5m2Inf .plus) ∧
    decodeTableWord 8 0b11000100 = some (.e5m2Normal .minus 17 0) ∧
    decodeInput (defaultInstance e4m3) (0b11111110 : BitVec 8) = .e4m3Normal .minus 15 6 ∧
    decodeInput (defaultInstance e4m3) (0b01111111 : BitVec 8) = .e4m3Nan .plus ∧
    decodeInput (defaultInstance e2m1) (0b1001 : BitVec 4) = .e2m1Subnormal .minus

/-! ### The configured formats (44_formats.md) -/

/-- R91: on an E5M2 instance Infinity is exactly 0x7C and 0xFC, NaN exactly the six patterns, the largest finite
magnitude 57344 at 0x7B and 0xFB, the smallest `2^-16` at 0x01 and 0x81. The bias and the NaN codes 1 and
2 are the spec's decisions (log entry 11). -/
def Obligations.E5m2SpecialsAndRange : Prop :=
  ∀ s : State, s.inst.desc = e5m2 → s.InRange →
    ∃ o, step s = .next (s.drive o) ∧ o.err = 0 ∧
      (o.tag = 2 ↔ s.bits.toNat ∈ [0x7C, 0xFC]) ∧
      (o.tag = 3 ↔ s.bits.toNat ∈ [0x7D, 0x7E, 0x7F, 0xFD, 0xFE, 0xFF]) ∧
      magnitude o ≤ 57344 ∧ (magnitude o = 57344 ↔ s.bits.toNat ∈ [0x7B, 0xFB]) ∧
      (o.tag = 1 → 1 / 65536 ≤ magnitude o ∧ (magnitude o = 1 / 65536 ↔ s.bits.toNat ∈ [0x01, 0x81]))

/-- R92: on an E4M3 instance no pattern is Infinity, exactly 0x7F and 0xFF are NaN, and the largest finite magnitude is
448, at 0x7E and 0xFE. -/
def Obligations.E4m3HasOneNanCodeAndReaches448 : Prop :=
  ∀ s : State, s.inst.desc = e4m3 → s.InRange →
    ∃ o, step s = .next (s.drive o) ∧ o.err = 0 ∧ o.tag ≠ 2 ∧
      (o.tag = 3 ↔ s.bits.toNat ∈ [0x7F, 0xFF]) ∧
      magnitude o ≤ 448 ∧ (magnitude o = 448 ↔ s.bits.toNat ∈ [0x7E, 0xFE])

/-- R93, R96: on an E2M1 instance no pattern is Infinity or NaN, and the sixteen values are those of the table. The bias
is the spec's decision (log entry 11). -/
def Obligations.E2m1HasNoSpecialsAndSixteenValues : Prop :=
  ∀ s : State, s.inst.desc = e2m1 → s.InRange →
    ∃ o, step s = .next (s.drive o) ∧ o.err = 0 ∧ o.tag ≠ 2 ∧ o.tag ≠ 3 ∧
      (val o).numeric = ([0, 1 / 2, 1, 3 / 2, 2, 3, 4, 6, 0, -1 / 2, -1, -3 / 2, -2, -3, -4, -6] : List ℚ)[s.bits.toNat]?

/-! ### The environment as a test bench (45_external_interface.md) -/

/-- R106: the counts of the three summaries (the test bench of log entry 15; the NaN codes of E5M2 by log entry 11). -/
def Obligations.SummaryCountsOfTheConfiguredFormats : Prop :=
  summary e5m2 = { entries := 256, nans := 6, infinities := 2 } ∧
    summary e4m3 = { entries := 256, nans := 2, infinities := 0 } ∧
    summary e2m1 = { entries := 16, nans := 0, infinities := 0 }

/-- R103: the binary string has `W` characters, most significant first, and reads back as the pattern. -/
def Obligations.BinaryStringReadsBack : Prop :=
  ∀ w p : Nat, p < 2 ^ w →
    (binaryDigits w p).length = w ∧
      (binaryDigits w p).foldl (fun n c => 2 * n + if c = '1' then 1 else 0) 0 = p

/-- R104, R107: the digits are those of the exact value `sig * 2^k`, with no trailing zero (log entry 15). -/
def Obligations.DecimalDigitsAreExact : Prop :=
  ∀ (sig : Nat) (k : Int),
    ((exactDecimal sig k).1 : ℚ) * 10 ^ (exactDecimal sig k).2 = sig * 2 ^ k ∧
      (sig ≠ 0 → (exactDecimal sig k).1 % 10 ≠ 0)

/-! ### Errors (60_exceptions.md) -/

/-- R111: `err` as wired is 1 exactly for an input of `2^W` or more, and is the constant 0 when `BUSW = W`. -/
def Obligations.ErrPortIsTheRangeTest : Prop :=
  ∀ (u : Instance) (b : BitVec u.busw),
    (errPort u b = 1 ↔ 2 ^ u.desc.W ≤ b.toNat) ∧ (u.busw = u.desc.W → errPort u b = 0) ∧
      (block u b.toNat).err = errPort u b

/-- R111, R115: a step on an out-of-range input completes with `err = 1`, the range violation with the offending
value as its result, and never a Decoded Value (log entry 5). -/
def Obligations.OutOfRangeInputIsARangeViolation : Prop :=
  ∀ s : State, ¬s.InRange →
    ∃ o, step s = .next (s.drive o) ∧ o.err = 1 ∧
      (s.drive o).result = .error (.rangeViolation s.bits.toNat)

/-- R50, R108, R112: a step on a pattern completes with `err = 0` and exactly one Decoded Value, one the descriptor
allows. -/
def Obligations.EveryPatternGivesOneAllowedValue : Prop :=
  ∀ s : State, s.InRange →
    ∃ v, Allows s.inst.desc v ∧ step s = .next (s.drive (portImage s.inst.desc v)) ∧
      (s.drive (portImage s.inst.desc v)).result = .ok v

/-! ### No state (10_state.md, 20_memory.md, 70_reset_and_hazards.md) -/

/-- R19, R25, R26: the outputs are, at any time, those of R83 for what the input port holds: at reset, after elaboration,
as soon as the host presents a value, after a word is placed at the port, and after every operation of the table, from
any state whatever. That the wires are a field, and which value an operation puts on the port, is the model's choice (log
entries 4, 20). -/
def Obligations.OutputsFollowTheInputAtAnyTime : Prop :=
  State.reset.Settled ∧ (∀ r upper bits t, elaborate r upper bits = .next t → t.Settled) ∧
    (∀ (s : State) (b : BitVec s.inst.busw), (s.present b).Settled) ∧
    (∀ (s : State) (nbits w : Nat), (s.withFetchWord nbits w).Settled) ∧
    ∀ (i : Instr) (s t : State), exec i s = .next t → t.Settled

/-- R13, R25: nothing is stored: a state whose outputs follow its input is determined by the instance and that input
(log entry 4). -/
def Obligations.NothingIsStoredBesideTheInput : Prop :=
  ∀ s t : State, s.Settled → t.Settled → s.inst = t.inst → s.bits.toNat = t.bits.toNat → s = t

/-- R13, R25, R34, R36, R116: after any sequence of evaluations, range violations among them, the instance is the same,
presenting an input gives the same state as without them, and so does its evaluation: the same outputs for the same
input. That the machine goes on after a range violation by a next state is the model's choice (log entry 5). -/
def Obligations.EvaluationsHaveNoHistory : Prop :=
  ∀ (s : State) (earlier : List Nat) (n : Nat),
    (s.evaluations earlier).inst = s.inst ∧
      (s.evaluations earlier).present (BitVec.ofNat _ n) = s.present (BitVec.ofNat _ n) ∧
      step ((s.evaluations earlier).present (BitVec.ofNat _ n)) = step (s.present (BitVec.ofNat _ n))

/-- R32, R128: after a step the outputs are those of the present input, and evaluating the same input again changes
nothing (the output wires are a field by log entry 4, settling by log entry 13). -/
def Obligations.StepSettlesTheOutputs : Prop :=
  ∀ s t : State, step s = .next t → t.Settled ∧ step t = .next t

/-- Every operation, not only a decoded one, leaves outputs that show a violation or one allowed Decoded Value. -/
def Obligations.EveryOperationKeepsTheOutputsCanonical : Prop :=
  ∀ (i : Instr) (s t : State), s.Inv → exec i s = .next t → t.Inv

/-- R24: the ports never show anything but a violation or the port image of a Decoded Value the descriptor allows. -/
def Obligations.StepKeepsTheOutputsCanonical : Prop :=
  ∀ s t : State, s.Inv → step s = .next t → t.Inv

/-- The reset state meets the invariant. -/
def Obligations.OutputsAreCanonicalAtReset : Prop :=
  State.reset.Inv

/-- R26, R125: at reset the outputs are R83 of what the input carries. That the instance is E5M2 and the input 0 is the
model's choice (log entries 2, 3). -/
def Obligations.ResetOutputsFollowTheInput : Prop :=
  State.reset.Settled ∧ State.reset.inst = defaultInstance e5m2 ∧ State.reset.bits.toNat = 0 ∧
    State.reset.result = .ok (.zero .plus)
end

