-- ==== Sys2Proof/Laws/Formats.lean ====
section
/-!
SUPPORT. The small lemmas of signs, descriptors, labels and widths.
-/

namespace Sys2Proof

@[simp] theorem Sign.ofBit_bit (s : Sign) : Sign.ofBit s.bit = s := by cases s <;> rfl

@[simp] theorem Sign.bit_ofBit (b : Bit) : (Sign.ofBit b).bit = b := by
  revert b; decide

/-- `W` is never 0 (10_state.md R17). -/
theorem Descriptor.one_le_W (d : Descriptor) : 1 ≤ d.W := by
  have := d.sum
  omega

/-- The field widths of a pattern below its sign bit. -/
theorem Descriptor.W_sub_one (d : Descriptor) : d.W - 1 = d.E + d.M := by
  have := d.sum
  omega

namespace Machine

@[simp] theorem formatOf_e5m2 : formatOf e5m2 = some .e5m2 := by decide
@[simp] theorem formatOf_e4m3 : formatOf e4m3 = some .e4m3 := by decide
@[simp] theorem formatOf_e2m1 : formatOf e2m1 = some .e2m1 := by decide

/-- A label names one descriptor, and only that one has it. -/
theorem formatOf_eq_some_iff (d : Descriptor) (f : FormatLabel) : formatOf d = some f ↔ d = descriptorOf f := by
  constructor
  · intro h
    unfold formatOf at h
    split at h
    · next h1 => cases h; exact h1
    · split at h
      · next h1 => cases h; exact h1
      · split at h
        · next h1 => cases h; exact h1
        · cases h
  · rintro rfl
    cases f <;> decide

@[simp] theorem expw_e5m2 : expw e5m2 = 6 := by decide
@[simp] theorem expw_e4m3 : expw e4m3 = 5 := by decide
@[simp] theorem expw_e2m1 : expw e2m1 = 3 := by decide

/-- The list of codes and the mask say the same (10_state.md R16). -/
theorem mem_nanCodes (d : Descriptor) (c : Nat) : c ∈ nanCodes d ↔ d.nanMask.getLsbD c = true := by
  simp only [nanCodes, List.mem_filter, List.mem_range, and_iff_right_iff_imp]
  exact fun h => BitVec.lt_of_getLsbD h

/-- `bitLength` counts the bits a number needs. -/
theorem bitLength_le_iff (n k : Nat) : bitLength n ≤ k ↔ n < 2 ^ k := by
  unfold bitLength
  split
  · next h => subst h; simp
  · next h => rw [Nat.succ_le_iff, Nat.log2_lt h]

/-- A signed integer fits `k + 1` bits of two's complement exactly when its width says so. -/
theorem signedWidth_le_iff (x : Int) (k : Nat) : signedWidth x ≤ k + 1 ↔ -(2 ^ k) ≤ x ∧ x < 2 ^ k := by
  have hpow : ((2 ^ k : Nat) : Int) = 2 ^ k := by push_cast; rfl
  simp only [signedWidth, Nat.add_le_add_iff_right, bitLength_le_iff]
  split <;> omega

/-- `zext_N` is exact on the naturals that `N` bits hold (00_scope.md R11; log entry 18). -/
theorem zext_toNat (n v : Nat) (h : v < 2 ^ n) : (zext n v).toNat = v := by
  rw [BitVec.toNat_ofNat, Nat.mod_eq_of_lt h]

/-- `sext_N` is exact on the integers that `N` bits hold (00_scope.md R11; log entry 16). -/
theorem sext_toInt (n : Nat) (v : Int) (h : signedWidth v ≤ n) : (sext n v).toInt = v := by
  obtain ⟨k, rfl⟩ : ∃ k, n = k + 1 := ⟨n - 1, by unfold signedWidth at h; omega⟩
  have hb := (signedWidth_le_iff v k).mp h
  simp only [sext, BitVec.toInt_ofInt]
  rw [Int.bmod_eq_of_le] <;> push_cast <;> rw [pow_succ] <;> omega

end Machine

end Sys2Proof
end

