-- ==== Sys2Proof/Laws/Decode.lean ====
section
/-!
SUPPORT. What the slices, the rows and the decoder can answer.
-/

namespace Sys2Proof

/-- A slice fits its width. -/
theorem slice_lt (p lo len : Nat) : slice p lo len < 2 ^ len :=
  Nat.mod_lt _ (Nat.two_pow_pos len)

/-- A zero-width slice is 0 (00_scope.md R10). -/
@[simp] theorem slice_zero_width (p lo : Nat) : slice p lo 0 = 0 := by
  simp [slice, Nat.mod_one]

/-- A slice by division, the arithmetic form of 30_encoding.md R41. -/
theorem slice_eq_div_mod (p lo len : Nat) : slice p lo len = p / 2 ^ lo % 2 ^ len := by
  simp [slice, Nat.shiftRight_eq_div_pow]

/-- An integer outside the format selects the generic operation. -/
theorem decodeValue_of_outOfRange (u : Instance) (b : Nat) (h : 2 ^ u.desc.W ≤ b) : decodeValue u b = .decode b :=
  if_pos h

/-- A pattern of a configured format selects the row that applies to it. -/
theorem decodeValue_of_format (u : Instance) (b : Nat) (f : FormatLabel) (hb : b < 2 ^ u.desc.W)
    (hf : Machine.formatOf u.desc = some f) : decodeValue u b = decodeRow (rowsOf f) b := by
  simp [decodeValue, Nat.not_le.mpr hb, hf]

/-- A pattern of any other descriptor selects the generic operation. -/
theorem decodeValue_of_noFormat (u : Instance) (b : Nat) (hf : Machine.formatOf u.desc = none) :
    decodeValue u b = .decode b := by
  simp [decodeValue, hf]

/-- A word of the table is what the port of its instance carries. -/
theorem decodeTableWord_eq_some_iff (nbits w : Nat) (i : Instr) :
    decodeTableWord nbits w = some i ↔ w < 2 ^ nbits ∧ decodeInput (tableInstance nbits) (BitVec.ofNat _ w) = i := by
  unfold decodeTableWord
  split <;> simp_all

/-- Decoding an integer answers exactly what the port carries. -/
theorem decodeInteger_eq_ok_iff (u : Instance) (n : Nat) (i : Instr) :
    decodeInteger u n = .ok i ↔ n < 2 ^ u.busw ∧ decodeValue u n = i := by
  unfold decodeInteger
  split <;> simp_all

namespace Machine

theorem exponentField_lt (d : Descriptor) (p : Nat) : exponentField d p < 2 ^ d.E :=
  slice_lt p d.M d.E

theorem mantissaField_lt (d : Descriptor) (p : Nat) : mantissaField d p < 2 ^ d.M :=
  slice_lt p 0 d.M

end Machine

end Sys2Proof
end

