-- ==== Sys2Proof/Laws/State.lean ====
section
/-!
SUPPORT. One lemma for each field under each update of the state, so that no later proof unfolds a record update.
-/

namespace Sys2Proof.Machine

@[simp] theorem State.evaluate_inst (s : State) (b : BitVec s.inst.busw) (o : Outputs s.inst.desc) :
    (s.evaluate b o).inst = s.inst := rfl
@[simp] theorem State.evaluate_bits (s : State) (b : BitVec s.inst.busw) (o : Outputs s.inst.desc) :
    (s.evaluate b o).bits = b := rfl
@[simp] theorem State.evaluate_out (s : State) (b : BitVec s.inst.busw) (o : Outputs s.inst.desc) :
    (s.evaluate b o).out = o := rfl

@[simp] theorem State.drive_inst (s : State) (o : Outputs s.inst.desc) : (s.drive o).inst = s.inst := rfl
@[simp] theorem State.drive_bits (s : State) (o : Outputs s.inst.desc) : (s.drive o).bits = s.bits := rfl
@[simp] theorem State.drive_out (s : State) (o : Outputs s.inst.desc) : (s.drive o).out = o := rfl

@[simp] theorem State.present_inst (s : State) (b : BitVec s.inst.busw) : (s.present b).inst = s.inst := rfl
@[simp] theorem State.present_bits (s : State) (b : BitVec s.inst.busw) : (s.present b).bits = b := rfl
@[simp] theorem State.present_out (s : State) (b : BitVec s.inst.busw) : (s.present b).out = block s.inst b.toNat := rfl

@[simp] theorem State.withFetchWord_inst (s : State) (nbits w : Nat) :
    (s.withFetchWord nbits w).inst = tableInstance nbits := rfl
@[simp] theorem State.withFetchWord_bits (s : State) (nbits w : Nat) :
    (s.withFetchWord nbits w).bits = BitVec.ofNat _ w := rfl
@[simp] theorem State.withFetchWord_out (s : State) (nbits w : Nat) :
    (s.withFetchWord nbits w).out = block (tableInstance nbits) (s.withFetchWord nbits w).bits.toNat := rfl

/-- The last outputs driven are the ones that stay. -/
@[simp] theorem State.drive_drive (s : State) (o o' : Outputs s.inst.desc) : (s.drive o).drive o' = s.drive o' := rfl

/-- Only the last evaluation shows: nothing of the one before is left. -/
@[simp] theorem State.evaluate_evaluate (s : State) (b b' : BitVec s.inst.busw) (o o' : Outputs s.inst.desc) :
    (s.evaluate b o).evaluate b' o' = s.evaluate b' o' := rfl

/-- Evaluating the value the port carries drives the outputs and changes nothing else. -/
theorem State.evaluate_bits_self (s : State) (o : Outputs s.inst.desc) : s.evaluate s.bits o = s.drive o := rfl

/-- What the outputs were before makes no difference to presenting an input. -/
@[simp] theorem State.present_drive (s : State) (b : BitVec s.inst.busw) (o : Outputs s.inst.desc) :
    (s.drive o).present b = s.present b := rfl

end Sys2Proof.Machine
end

