-- ==== Sys2Proof/Laws/Ops.lean ====
section
/-!
SUPPORT. What each shared operation can do, once; and the inversion of exec and step.
-/

namespace Sys2Proof.Machine

/-- A class row's meaning answers a next state exactly where the row applies: the evaluation of the row's pattern. -/
theorem deliver_eq_next_iff (mn : String) (f : FormatLabel) (c : Cls) (sg : Sign) (e m : Nat) (s t : State) :
    deliver mn f c sg e m s = .next t ↔
      (formatOf s.inst.desc = some f ∧ classify s.inst.desc e m = c) ∧
        t = s.evaluate (BitVec.ofNat _ (pack s.inst.desc sg e m)) (assemble s.inst.desc c sg.bit e m) := by
  unfold deliver
  split
  · next h => simp [h, eq_comm]
  · next h => simp [h]

/-- Where the row applies, the meaning completes. -/
theorem deliver_of_applies (mn : String) (f : FormatLabel) (c : Cls) (sg : Sign) (e m : Nat) (s : State)
    (hf : formatOf s.inst.desc = some f) (hc : classify s.inst.desc e m = c) :
    deliver mn f c sg e m s =
      .next (s.evaluate (BitVec.ofNat _ (pack s.inst.desc sg e m)) (assemble s.inst.desc c sg.bit e m)) :=
  if_pos ⟨hf, hc⟩

/-- On an instance of its format, a row whose four sub-blocks give the port image of `v` completes with that image. -/
theorem deliver_of_image (mn : String) (f : FormatLabel) (c : Cls) (sg : Sign) (e m : Nat) (s : State)
    (v : DecodedValue) (hd : s.inst.desc = descriptorOf f) (hc : classify (descriptorOf f) e m = c)
    (hv : assemble (descriptorOf f) c sg.bit e m = portImage (descriptorOf f) v) :
    deliver mn f c sg e m s =
      .next (s.evaluate (BitVec.ofNat _ (pack (descriptorOf f) sg e m)) (portImage s.inst.desc v)) := by
  have hf := (formatOf_eq_some_iff _ _).mpr hd
  rw [← hd] at hc hv ⊢
  rw [deliver_of_applies mn f c sg e m s hf hc, hv]

/-- A row that completes puts its pattern, at the field widths of its format, on the port. -/
theorem deliver_cases {mn : String} {f : FormatLabel} {c : Cls} {sg : Sign} {e m : Nat} {s t : State}
    (h : deliver mn f c sg e m s = .next t) :
    ∃ o, t = s.evaluate (BitVec.ofNat _ (pack (descriptorOf f) sg e m)) o := by
  obtain ⟨⟨hf, -⟩, ht⟩ := (deliver_eq_next_iff ..).mp h
  rw [← (formatOf_eq_some_iff _ _).mp hf]
  exact ⟨_, ht⟩

/-- Elsewhere it is refused under its mnemonic. -/
theorem deliver_of_notApplies (mn : String) (f : FormatLabel) (c : Cls) (sg : Sign) (e m : Nat) (s : State)
    (h : ¬(formatOf s.inst.desc = some f ∧ classify s.inst.desc e m = c)) :
    deliver mn f c sg e m s = .refused (.notThisRow mn) :=
  if_neg h

/-- Outside the format the block drives the range violation. -/
theorem block_of_outOfRange (u : Instance) (b : Nat) (h : 2 ^ u.desc.W ≤ b) : block u b = raiseRangeViolation u b :=
  if_pos h

/-- DECODE of a value the port carries is that value presented. -/
theorem execDecode_of_lt (b : Nat) (s : State) (h : b < 2 ^ s.inst.busw) :
    execDecode b s = .next (s.present (BitVec.ofNat _ b)) :=
  if_pos h

/-- DECODE completes exactly for the values the port carries. -/
theorem execDecode_eq_next_iff (b : Nat) (s t : State) :
    execDecode b s = .next t ↔ b < 2 ^ s.inst.busw ∧ t = s.present (BitVec.ofNat _ b) := by
  unfold execDecode
  split
  · next h => simp [h, eq_comm]
  · next h => simp [h]

/-- The composition never shows an error. -/
@[simp] theorem composition_err (d : Descriptor) (p : Nat) : (composition d p).err = 0 := rfl

@[simp] theorem raiseRangeViolation_err (u : Instance) (b : Nat) : (raiseRangeViolation u b).err = 1 := rfl

/-- The payload ports of a Finite value that fits them are exactly its `sig` and `exp` (10_state.md R24). -/
theorem portImage_finite (d : Descriptor) (s : Sign) (sig : Nat) (exp : Int) (hs : sig < 2 ^ (d.M + 1))
    (he : signedWidth exp ≤ expw d) :
    (portImage d (.finite s sig exp)).sig.toNat = sig ∧ (portImage d (.finite s sig exp)).exp.toInt = exp :=
  ⟨zext_toNat _ _ hs, sext_toInt _ _ he⟩

/-- The port image of a Decoded Value shows no error. -/
@[simp] theorem portImage_err (d : Descriptor) (v : DecodedValue) : (portImage d v).err = 0 := by
  cases v <;> rfl

/-- Elaboration fails only by the configuration error, and an instance it makes shows the outputs of its input. -/
theorem elaborate_cases (r : RawDescriptor) (upper bits : Nat) :
    (mkDescriptor r = .error .invalidDescriptor ∧ elaborate r upper bits = .fault .configError) ∨
      ∃ d t, mkDescriptor r = .ok d ∧ elaborate r upper bits = .next t ∧ t.inst.desc = d ∧
        t.inst.busw = d.W + upper ∧ t.out = block t.inst t.bits.toNat := by
  unfold elaborate
  split
  · next e he => cases e; exact .inl ⟨he, rfl⟩
  · next d hd => exact .inr ⟨d, _, hd, rfl, rfl, rfl, rfl⟩

/-- exec, when it answers a next state, has evaluated the operation's value and changed nothing else. -/
theorem exec_cases (i : Instr) (s t : State) (h : exec i s = .next t) :
    ∃ o, t = s.evaluate (BitVec.ofNat _ (encode i)) o := by
  cases i with
  | decode b => exact ⟨_, ((execDecode_eq_next_iff ..).mp h).2⟩
  | e5m2Zero sg => obtain ⟨o, ho⟩ := deliver_cases h; exact ⟨o, ho⟩
  | e5m2Subnormal sg m => obtain ⟨o, ho⟩ := deliver_cases h; exact ⟨o, ho⟩
  | e5m2Inf sg => obtain ⟨o, ho⟩ := deliver_cases h; exact ⟨o, ho⟩
  | e5m2Nan sg m => obtain ⟨o, ho⟩ := deliver_cases h; exact ⟨o, ho⟩
  | e5m2Normal sg e m => obtain ⟨o, ho⟩ := deliver_cases h; exact ⟨o, ho⟩
  | e4m3Zero sg => obtain ⟨o, ho⟩ := deliver_cases h; exact ⟨o, ho⟩
  | e4m3Subnormal sg m => obtain ⟨o, ho⟩ := deliver_cases h; exact ⟨o, ho⟩
  | e4m3Nan sg => obtain ⟨o, ho⟩ := deliver_cases h; exact ⟨o, ho⟩
  | e4m3Normal sg e m => obtain ⟨o, ho⟩ := deliver_cases h; exact ⟨o, ho⟩
  | e2m1Zero sg => obtain ⟨o, ho⟩ := deliver_cases h; exact ⟨o, ho⟩
  | e2m1Subnormal sg => obtain ⟨o, ho⟩ := deliver_cases h; exact ⟨o, ho⟩
  | e2m1Normal sg e m => obtain ⟨o, ho⟩ := deliver_cases h; exact ⟨o, ho⟩

end Sys2Proof.Machine
end

