-- ==== Sys2Proof/Laws/PerInstr.lean ====
section
/-!
SUPPORT. Per-instruction statements. EncodingFits: the encoding of an operation an instance has is a value its input
port carries (10_state.md R18).
-/

namespace Sys2Proof.Laws.EncodingFits

/-- What EncodingFits says of one instruction. -/
def Statement (i : Instr) : Prop :=
  ∀ u : Instance, i.wellFormedOn u = true → encode i < 2 ^ u.busw

/-- A pattern of a format fits every port that is wide enough for the format. -/
theorem of_format (i : Instr) (f : FormatLabel) (hon : ∀ u, i.on u = decide (Machine.formatOf u.desc = some f))
    (henc : encode i < 2 ^ (Machine.descriptorOf f).W) : Statement i := by
  intro u h
  simp only [Instr.wellFormedOn, hon, Bool.and_eq_true, decide_eq_true_eq] at h
  have hd := (Machine.formatOf_eq_some_iff u.desc f).mp h.2
  exact henc.trans_le (Nat.pow_le_pow_right (by decide) (hd ▸ u.fits))

theorem decode (b : Nat) : Statement (.decode b) := by
  intro u h
  simp only [Instr.wellFormedOn, Instr.on, Bool.and_eq_true, decide_eq_true_eq] at h
  exact h.2.1

theorem e5m2Zero (s : Sign) : Statement (.e5m2Zero s) :=
  of_format _ .e5m2 (fun _ => rfl) (by cases s <;> decide)

theorem e5m2Subnormal (s : Sign) (m : BitVec 2) : Statement (.e5m2Subnormal s m) :=
  of_format _ .e5m2 (fun _ => rfl) (by cases s <;> revert m <;> decide)

theorem e5m2Inf (s : Sign) : Statement (.e5m2Inf s) :=
  of_format _ .e5m2 (fun _ => rfl) (by cases s <;> decide)

theorem e5m2Nan (s : Sign) (m : BitVec 2) : Statement (.e5m2Nan s m) :=
  of_format _ .e5m2 (fun _ => rfl) (by cases s <;> revert m <;> decide)

theorem e5m2Normal (s : Sign) (e : BitVec 5) (m : BitVec 2) : Statement (.e5m2Normal s e m) :=
  of_format _ .e5m2 (fun _ => rfl) (by cases s <;> revert e m <;> decide)

theorem e4m3Zero (s : Sign) : Statement (.e4m3Zero s) :=
  of_format _ .e4m3 (fun _ => rfl) (by cases s <;> decide)

theorem e4m3Subnormal (s : Sign) (m : BitVec 3) : Statement (.e4m3Subnormal s m) :=
  of_format _ .e4m3 (fun _ => rfl) (by cases s <;> revert m <;> decide)

theorem e4m3Nan (s : Sign) : Statement (.e4m3Nan s) :=
  of_format _ .e4m3 (fun _ => rfl) (by cases s <;> decide)

theorem e4m3Normal (s : Sign) (e : BitVec 4) (m : BitVec 3) : Statement (.e4m3Normal s e m) :=
  of_format _ .e4m3 (fun _ => rfl) (by cases s <;> revert e m <;> decide)

theorem e2m1Zero (s : Sign) : Statement (.e2m1Zero s) :=
  of_format _ .e2m1 (fun _ => rfl) (by cases s <;> decide)

theorem e2m1Subnormal (s : Sign) : Statement (.e2m1Subnormal s) :=
  of_format _ .e2m1 (fun _ => rfl) (by cases s <;> decide)

theorem e2m1Normal (s : Sign) (e : BitVec 2) (m : BitVec 1) : Statement (.e2m1Normal s e m) :=
  of_format _ .e2m1 (fun _ => rfl) (by cases s <;> revert e m <;> decide)

end Sys2Proof.Laws.EncodingFits
end

