-- ==== Sys2Proof/Tests/Slice0.lean ====
section
/-!
SUPPORT. The model's own tests. Every expected value is written from the spec's encodings or from its test vectors
(95_test_vectors.md, 96_test_vectors_enumerations.md), named in the comment of the test; then the witnesses of the
statements' hypotheses.
-/

namespace Sys2Proof.Tests

open Sys2Proof.Machine

/-- An instance of `d` with `upper` wires above the pattern, the input `b`, and every output wire 0. -/
def at' (d : Descriptor) (upper b : Nat) : State :=
  { inst := { desc := d, busw := d.W + upper, fits := Nat.le_add_right _ _ }
    bits := BitVec.ofNat _ b
    out := { err := 0, tag := 0, sign := 0, sig := 0, exp := 0 } }

/-- The output vector of 30_encoding.md R43 after a step, as a number. -/
def shown : Host.Outcome State Fault Refusal → Option Nat
  | .next t => some (bundle t.out).toNat
  | .fault _ => none
  | .refused _ => none

/-- The error output after a step. -/
def errShown : Host.Outcome State Fault Refusal → Option Bit
  | .next t => some t.out.err
  | .fault _ => none
  | .refused _ => none

/-- The abstract result after a step. -/
def resultShown : Host.Outcome State Fault Refusal → Option (Except Fault DecodedValue)
  | .next t => some t.result
  | .fault _ => none
  | .refused _ => none

/-- The refusal an operation ends in. -/
def refusal : Host.Outcome State Fault Refusal → Option Refusal
  | .next _ => none
  | .fault _ => none
  | .refused r => some r

/-! ### Well-formedness: a term each check refuses -/

theorem test_illformed_e5m2Subnormal : (Instr.e5m2Subnormal .plus 0).wellFormed = false := by decide
theorem test_illformed_e5m2Nan : (Instr.e5m2Nan .plus 0).wellFormed = false := by decide
theorem test_illformed_e5m2Normal_zero : (Instr.e5m2Normal .plus 0 1).wellFormed = false := by decide
theorem test_illformed_e5m2Normal_max : (Instr.e5m2Normal .plus 31 1).wellFormed = false := by decide
theorem test_illformed_e4m3Subnormal : (Instr.e4m3Subnormal .minus 0).wellFormed = false := by decide
theorem test_illformed_e4m3Normal_zero : (Instr.e4m3Normal .plus 0 5).wellFormed = false := by decide
theorem test_illformed_e4m3Normal_nan : (Instr.e4m3Normal .plus 15 7).wellFormed = false := by decide
theorem test_illformed_e2m1Normal : (Instr.e2m1Normal .plus 0 1).wellFormed = false := by decide
theorem test_illformed_otherFormat : (Instr.e4m3Zero .plus).wellFormedOn (at' e5m2 0 0).inst = false := by decide
theorem test_illformed_decode_pattern : (Instr.decode 15).wellFormedOn (at' e2m1 4 0).inst = false := by decide
theorem test_illformed_decode_port : (Instr.decode 256).wellFormedOn (at' e2m1 4 0).inst = false := by decide

/-! ### Decoding: a word written out from 30_encoding.md R42 and the table for each constructor -/

-- E5M2 is `s eeeee mm`; words of the table are read on it
theorem test_decode_e5m2Zero : decodeTableWord 8 0b10000000 = some (.e5m2Zero .minus) := by decide
theorem test_decode_e5m2Subnormal : decodeTableWord 8 0b00000011 = some (.e5m2Subnormal .plus 3) := by decide
theorem test_decode_e5m2Subnormal_one : decodeTableWord 8 0b10000001 = some (.e5m2Subnormal .minus 1) := by decide
theorem test_decode_e5m2Inf : decodeTableWord 8 0b11111100 = some (.e5m2Inf .minus) := by decide
theorem test_decode_e5m2Nan : decodeTableWord 8 0b01111110 = some (.e5m2Nan .plus 2) := by decide
theorem test_decode_e5m2Nan_one : decodeTableWord 8 0b11111101 = some (.e5m2Nan .minus 1) := by decide
theorem test_decode_e5m2Normal : decodeTableWord 8 0b11000100 = some (.e5m2Normal .minus 17 0) := by decide
-- E4M3 is `s eeee mmm`
theorem test_decode_e4m3Zero : (at' e4m3 0 0b10000000).selected = .e4m3Zero .minus := by decide
theorem test_decode_e4m3Subnormal : (at' e4m3 0 0b00000101).selected = .e4m3Subnormal .plus 5 := by decide
theorem test_decode_e4m3Subnormal_two : (at' e4m3 0 0b10000010).selected = .e4m3Subnormal .minus 2 := by decide
theorem test_decode_e4m3Nan : (at' e4m3 0 0b11111111).selected = .e4m3Nan .minus := by decide
theorem test_decode_e4m3Normal : (at' e4m3 0 0b10111001).selected = .e4m3Normal .minus 7 1 := by decide
theorem test_decode_e4m3Normal_max : (at' e4m3 0 0b01111110).selected = .e4m3Normal .plus 15 6 := by decide
-- E2M1 is `s ee m`
theorem test_decode_e2m1Zero : decodeTableWord 4 0b1000 = some (.e2m1Zero .minus) := by decide
theorem test_decode_e2m1Subnormal : decodeTableWord 4 0b1001 = some (.e2m1Subnormal .minus) := by decide
theorem test_decode_e2m1Normal : decodeTableWord 4 0b0111 = some (.e2m1Normal .plus 3 1) := by decide
-- the generic operation: an input outside the format, and a descriptor without rows (B8, B10 X1)
theorem test_decode_outOfRange : (at' e2m1 4 0b00010111).selected = .decode 23 := by decide
theorem test_decode_word_tooLong : decodeTableWord 8 256 = none := by decide
theorem test_decodeInteger_rejects : decodeInteger (at' e2m1 4 0).inst 256 = .error .widerThanPort := by decide
theorem test_encode_e4m3Normal : encode (.e4m3Normal .minus 15 6) = 0b11111110 := by decide

/-- 30_encoding.md R48: the rows of a format but the last are pairwise disjoint, and stand in the order of priority. -/
theorem test_rows_disjoint :
    ∀ rows ∈ [e5m2Rows, e4m3Rows, e2m1Rows],
      rows.dropLast.Pairwise (fun a b => ∀ p < 256, ¬(a.fits p = true ∧ b.fits p = true)) ∧
        rows.Pairwise (fun a b => a.priority ≤ b.priority) := by
  decide +kernel

/-- 30_encoding.md R47 and R48: the row that applies is the row of the pattern's class. -/
theorem test_rows_follow_classes :
    ∀ f ∈ [FormatLabel.e5m2, .e4m3, .e2m1], ∀ p < 2 ^ (descriptorOf f).W,
      ((rowsOf f).find? fun r => r.fits p).map TableRow.cls =
        some (classify (descriptorOf f) (exponentField (descriptorOf f) p) (mantissaField (descriptorOf f) p)) := by
  decide +kernel

/-! ### Meanings: the vectors `err tag sign sig exp` of 95 and 96 -/

-- P3 step 2
theorem test_e5m2Zero : shown (step (at' e5m2 0 0x80)) = some 0b0_00_1_000_000000 := by decide
-- P3 steps 4 and 5
theorem test_e5m2Subnormal : shown (step (at' e5m2 0 0x81)) = some 0b0_01_1_001_110010 := by decide
theorem test_e5m2Subnormal_largest : shown (step (at' e5m2 0 0x03)) = some 0b0_01_0_011_110010 := by decide
-- A3, P3 step 10
theorem test_e5m2Inf : shown (step (at' e5m2 0 0x7C)) = some 0b0_10_0_000_000000 := by decide
theorem test_e5m2Inf_minus : shown (step (at' e5m2 0 0xFC)) = some 0b0_10_1_000_000000 := by decide
-- A4, P3 step 12: the sign is dropped
theorem test_e5m2Nan : shown (step (at' e5m2 0 0x7F)) = some 0b0_11_0_000_000000 := by decide
theorem test_e5m2Nan_minus : shown (step (at' e5m2 0 0xFD)) = some 0b0_11_0_000_000000 := by decide
-- P3 steps 8 and 6
theorem test_e5m2Normal_largest : shown (step (at' e5m2 0 0xFB)) = some 0b0_01_1_111_001111 := by decide
theorem test_e5m2Normal_smallest : shown (step (at' e5m2 0 0x04)) = some 0b0_01_0_100_110010 := by decide
-- B4: 0x80 of E4M3
theorem test_e4m3Zero : shown (step (at' e4m3 0 0x80)) = some 0b0_00_1_0000_00000 := by decide
-- B2: e = 0, m = 7 of E4M3 gives significand 7 and exponent -6
theorem test_e4m3Subnormal : resultShown (step (at' e4m3 0 0x07)) = some (.ok (.finite .plus 7 (-6))) := by decide
-- P2 step 16
theorem test_e4m3Nan : shown (step (at' e4m3 0 0xFF)) = some 0b0_11_0_0000_00000 := by decide
-- P2 steps 15 and 1: the max exponent is an ordinary number
theorem test_e4m3Normal_448 : shown (step (at' e4m3 0 0xFE)) = some 0b0_01_1_1110_01000 := by decide
theorem test_e4m3Normal_256 : shown (step (at' e4m3 0 0x78)) = some 0b0_01_0_1000_01000 := by decide
-- P1 steps 9, 10, 16, 3
theorem test_e2m1Zero : shown (step (at' e2m1 0 0x8)) = some 0b0_00_1_00_000 := by decide
theorem test_e2m1Subnormal : shown (step (at' e2m1 0 0x9)) = some 0b0_01_1_01_000 := by decide
theorem test_e2m1Normal_max : shown (step (at' e2m1 0 0xF)) = some 0b0_01_1_11_010 := by decide
theorem test_e2m1Normal_one : shown (step (at' e2m1 0 0x2)) = some 0b0_01_0_10_000 := by decide

/-- B10 X5: `W = 4, E = 1, M = 2, BIAS = 0, HAS_INF = true, NAN_CODES = {3}`. -/
def x5 : Descriptor := { W := 4, E := 1, M := 2, bias := 0, hasInf := true, nanMask := nanMaskOf 2 [3], sum := rfl }

/-- B10 X4: `W = 4, E = 2, M = 1, BIAS = -2`, no special values. -/
def x4 : Descriptor := { W := 4, E := 2, M := 1, bias := -2, hasInf := false, nanMask := nanMaskOf 1 [], sum := rfl }

/-- B10 X1: `W = 3, E = 0, M = 2, BIAS = 0, HAS_INF = true, NAN_CODES = {0, 3}`. -/
def x1 : Descriptor := { W := 3, E := 0, M := 2, bias := 0, hasInf := true, nanMask := nanMaskOf 2 [0, 3], sum := rfl }

/-- B10 X3: `W = 3, E = 2, M = 0, BIAS = 1, HAS_INF = true, NAN_CODES = {0}`. -/
def x3 : Descriptor := { W := 3, E := 2, M := 0, bias := 1, hasInf := true, nanMask := nanMaskOf 0 [0], sum := rfl }

/-- B10 X6: `W = 1, E = 0, M = 0, BIAS = 0, HAS_INF = true, NAN_CODES = {0}`. -/
def x6 : Descriptor := { W := 1, E := 0, M := 0, bias := 0, hasInf := true, nanMask := nanMaskOf 0 [0], sum := rfl }

-- the generic operation, on B10 X5 0b0110 and 0b1111, X4 0b1111
theorem test_decode_x5_normal : shown (exec (.decode 0b0110) (at' x5 0 0)) = some 0b0_01_0_110_01 := by decide
theorem test_decode_x4_largest : shown (step (at' x4 0 0b1111)) = some 0b0_01_1_11_0101 := by decide
-- X3 0b111: INF comes before NAN; X1 0b011: SUBNORMAL comes before both
theorem test_x3_infinity : resultShown (step (at' x3 0 0b111)) = some (.ok (.infinity .minus)) := by decide
theorem test_x1_subnormal : resultShown (step (at' x1 0 0b011)) = some (.ok (.finite .plus 3 1)) := by decide
-- B10: EXPW of X1, X4 and the configured formats
theorem test_expw : [x1, x4, x6, e5m2, e4m3, e2m1].map expw = [2, 4, 2, 6, 5, 3] := by decide

-- B8 and P4: a range violation, the value one below, and the recovery after it
theorem test_err_raised : errShown (step (at' e2m1 4 0x17)) = some 1 := by decide
theorem test_err_result : resultShown (step (at' e2m1 4 0x10)) = some (.error (.rangeViolation 16)) := by decide
theorem test_err_not_raised : shown (step (at' e2m1 4 0x0F)) = some 0b0_01_1_11_010 := by decide
theorem test_err_wide_port : shown (step (at' e4m3 8 0x00FF)) = some 0b0_11_0_0000_00000 := by decide

-- a class row on an instance of another format, and with operands of another class
theorem test_row_of_other_format : refusal (exec (.e4m3Nan .plus) (at' e5m2 0 0)) = some (.notThisRow "E4M3.NAN") := by
  decide
theorem test_row_of_other_class :
    refusal (exec (.e5m2Normal .plus 31 1) (at' e5m2 0 0)) = some (.notThisRow "E5M2.NORMAL") := by decide

-- B9: rows (8, 4, 4) and (0, 0, 0) are configuration errors, (16, 5, 10) is a descriptor
theorem test_mkDescriptor_badSum : mkDescriptor ⟨8, 4, 4, 7, false, 0⟩ = .error .invalidDescriptor := by decide
theorem test_mkDescriptor_noBits : mkDescriptor ⟨0, 0, 0, 1, false, 0⟩ = .error .invalidDescriptor := by decide
theorem test_elaborate_badSum : (match elaborate ⟨8, 4, 4, 7, false, 0⟩ 0 0 with
    | .fault r => some r | .next _ => none | .refused _ => none) = some Fault.configError := by decide

-- the first step after a word is placed runs it; on the reset state an 8-bit word changes the input only
theorem test_withFetchWord : shown (step (State.reset.withFetchWord 8 0x7C)) = some 0b0_10_0_000_000000 := by decide
theorem test_withFetchWord_keeps :
    State.reset.withFetchWord 8 0x7C = State.reset.present (0x7C : BitVec 8) := by decide
-- 10_state.md R26: the reset state already shows the outputs of its input, so its first step changes nothing
theorem test_step_from_reset : (match step State.reset with
    | .next t => decide (t = State.reset) | .fault _ => false | .refused _ => false) = true := by decide

-- 10_state.md R19, R26: the outputs follow the input as soon as it is presented, here after a range violation
theorem test_present_follows : ((at' e2m1 4 0x17).present (0x0F : BitVec 8)).result = .ok (.finite .minus 3 2) := by decide
-- log entry 20, 60_exceptions.md R109: executing an operation puts its value on the port, and the result names it
theorem test_exec_presents : resultShown (exec (.decode 23) (at' e2m1 4 0)) = some (.error (.rangeViolation 23)) := by
  decide
theorem test_exec_row_presents : (match exec (.e5m2Inf .minus) (at' e5m2 8 0) with
    | .next t => t.bits.toNat | .fault _ => 0 | .refused _ => 0) = 0xFC := by decide
-- log entry 20, 10_state.md R18: the port of 4 wires cannot carry 16
theorem test_decode_wider : refusal (exec (.decode 16) (at' e2m1 0 0)) = some (.widerThanPort 16) := by decide

-- 00_scope.md R2: the identity is the pair of the name and the descriptor
theorem test_identity : (at' e4m3 8 0).inst.identity = { name := "minifloat_decoder", desc := e4m3 } := by decide
-- 44_formats.md R91: the largest significand of E5M2 is 7, and it fits the port (log entry 18)
theorem test_portImage_largest : (portImage e5m2 (.finite .plus 7 15)).sig.toNat = 7 := by decide

-- 45: R103 pattern 5 of a 4-bit format is "0101"; R104; B7 and R96: the digits of 0.5 are 5 * 10^-1, of 448 are 448
theorem test_binary : binaryDigits 4 5 = ['0', '1', '0', '1'] := by decide
theorem test_render_minusZero : (referenceEntry e5m2 0x80).decimal = "-0" := by decide
theorem test_render_infinity : (referenceEntry e5m2 0xFC).decimal = "-Infinity" := by decide
theorem test_digits_half : exactDecimal 1 (-1) = (5, -1) := by decide
theorem test_digits_smallest : exactDecimal 1 (-16) = (152587890625, -16) := by decide
theorem test_summary_e2m1 : summary e2m1 = { entries := 16, nans := 0, infinities := 0 } := by decide

/-! ### Witnesses: a state and operands that meet the hypotheses of each statement that has some -/

theorem witness_DescriptorIsMadeExactlyFromValidFields : ∃ d, mkDescriptor ⟨8, 5, 2, 15, true, 0⟩ = .ok d :=
  ⟨_, rfl⟩

theorem witness_InvalidDescriptorYieldsNoInstance :
    (∃ r : RawDescriptor, ¬(1 ≤ r.W ∧ 0 ≤ r.E ∧ 0 ≤ r.M ∧ 1 + r.E + r.M = r.W)) ∧
      ∃ r : RawDescriptor, 1 ≤ r.W ∧ 0 ≤ r.E ∧ 0 ≤ r.M ∧ 1 + r.E + r.M = r.W :=
  ⟨⟨⟨8, 4, 4, 7, false, 0⟩, by decide⟩, ⟨⟨1, 0, 0, 1, false, 0⟩, by decide⟩⟩

theorem witness_ExponentPortWidthIsTheLeastThatFits : (1 : Nat) ≤ 6 ∧ expw e5m2 = 6 ∧ x1.E = 0 := by decide

theorem witness_FieldsLoseNothing : (0xFF : Nat) < 2 ^ e5m2.W ∧ 31 < 2 ^ e5m2.E ∧ 3 < 2 ^ e5m2.M := by decide

theorem witness_FieldsAreSlicesOfThePort : x1.E = 0 ∧ x3.M = 0 := by decide

theorem witness_SignificandIsExact : (3 : Nat) < 2 ^ e5m2.M ∧ (3 : Nat) ≠ 0 ∧ (0 : Nat) < 2 ^ x3.M ∧ x3.M = 0 := by
  decide

theorem witness_HiddenBitAndEffectiveExponent : (31 : Nat) ≠ 0 ∧ (31 : Nat) < 2 ^ e5m2.E := by decide

theorem witness_BiasSubtractionNeverOverflows : (0 : Nat) < 2 ^ e5m2.E ∧ (31 : Nat) < 2 ^ e5m2.E := by decide

theorem witness_EachClassHasItsCondition :
    [(0, 0), (0, 3), (31, 0), (31, 1), (30, 3)].map (fun x => classify e5m2 x.1 x.2) =
      [.zero, .subnormal, .inf, .nan, .normal] := by decide

theorem witness_ExactlyTwoPatternsAreZero : (0x80 : Nat) < 2 ^ e4m3.W := by decide

theorem witness_DegenerateWidths :
    x1.E = 0 ∧ x5.E = 1 ∧ exponentField x5 0b0101 ≠ 0 ∧ x3.M = 0 ∧ 1 ≤ x3.E ∧
      exponentField x3 0b011 = 2 ^ x3.E - 1 ∧ classify x3 (exponentField x3 0b010) (mantissaField x3 0b010) = .normal ∧
      x6.W = 1 ∧ 0b011 < 2 ^ x1.W ∧ 0b0101 < 2 ^ x5.W ∧ 0b011 < 2 ^ x3.W ∧ 1 < 2 ^ x6.W := by decide

theorem witness_PortImageIsABijection :
    Allows e5m2 (.finite .plus 7 15) ∧ Allows e5m2 (.infinity .minus) ∧ Allows e5m2 .nan ∧
      Canonical (portImage e5m2 .nan) ∧ (portImage e5m2 .nan).err = 0 := by
  have hn : Allows e5m2 .nan := ⟨by decide, 1, by decide, by decide⟩
  exact ⟨by refine ⟨?_, ?_, ?_, ?_⟩ <;> decide, ⟨by decide, by decide⟩, hn, .inr ⟨.nan, hn, rfl⟩, rfl⟩

theorem witness_DecodeOfAPatternFollowsTheFiveArms : 0xFF < 2 ^ (at' e4m3 8 0).inst.desc.W := by decide

theorem witness_DecodeOutOfRangeRaisesErr :
    2 ^ (at' e2m1 4 0).inst.desc.W ≤ 16 ∧ 16 < 2 ^ (at' e2m1 4 0).inst.busw ∧
      2 ^ (at' e2m1 4 0).inst.desc.W ≤ 256 ∧ 2 ^ (at' e2m1 4 0).inst.busw ≤ 256 := by decide

theorem witness_BlockIsTheCompositionOfTheSubBlocks : 15 < 2 ^ (at' e2m1 0 0).inst.desc.W := by decide

theorem witness_BlockDrivesThePortsOfTheMux :
    (block (at' e5m2 0 0).inst 0x03).tag = 1 ∧ (block (at' e5m2 0 0).inst 0x7B).tag = 1 ∧
      [0x80, 0x03, 0x7C, 0x7F, 0x7B].map (fun p => classify e5m2 (exponentField e5m2 p) (mantissaField e5m2 p)) =
        [.zero, .subnormal, .inf, .nan, .normal] := by decide

theorem witness_SignBitChangesTheSignOnly :
    0x7B < 2 ^ e5m2.W ∧ (block (at' e5m2 0 0).inst 0x7B).tag ≠ 3 ∧ (block (at' e5m2 0 0).inst 0x7F).tag = 3 := by decide

theorem witness_ValueIsTheSourcesFormula :
    [0x80, 0x03, 0x7C, 0x7F, 0x45].map (fun p => classify e5m2 (exponentField e5m2 p) (mantissaField e5m2 p)) =
      [.zero, .subnormal, .inf, .nan, .normal] := by decide

theorem witness_FiniteMagnitudesAreStrictlyIncreasing :
    0x83 < 0x84 ∧ 0x84 < 2 ^ e5m2.W ∧ 0x83 / 2 ^ (e5m2.W - 1) = 0x84 / 2 ^ (e5m2.W - 1) ∧
      (block (at' e5m2 0 0).inst 0x83).tag = 1 ∧ (block (at' e5m2 0 0).inst 0x84).tag = 1 := by decide

theorem witness_OutputsDetermineThePatternUnlessNan :
    0x7F < 2 ^ e4m3.W ∧ 0xFF < 2 ^ e4m3.W ∧
      block (at' e4m3 0 0).inst 0x7F = block (at' e4m3 0 0).inst 0xFF := by decide

theorem witness_RowStatements :
    (at' e5m2 0 0).inst.desc = e5m2 ∧ (at' e4m3 0 0).inst.desc = e4m3 ∧ (at' e2m1 0 0).inst.desc = e2m1 ∧
      (1 : BitVec 2) ≠ 0 ∧ (7 : BitVec 3) ≠ 0 ∧ (30 : BitVec 5) ≠ 0 ∧ (30 : BitVec 5) ≠ 31 ∧
      (15 : BitVec 4) ≠ 0 ∧ ¬((15 : BitVec 4) = 15 ∧ (6 : BitVec 3) = 7) ∧ (3 : BitVec 2) ≠ 0 := by decide

theorem witness_ClassRowsRunExactlyWhereTheyApply :
    (Instr.e4m3Nan .plus).format = some .e4m3 ∧ (Instr.e4m3Nan .plus).wellFormedOn (at' e4m3 0 0).inst = true ∧
      (Instr.e4m3Nan .plus).wellFormedOn (at' e5m2 0 0).inst = false := by decide

theorem witness_OperationsChangeOnlyTheOutputs : ∃ t, exec (.e2m1Zero .minus) (at' e2m1 4 0) = .next t :=
  ⟨_, deliver_of_image "E2M1.ZERO" .e2m1 .zero .minus 0 0 (at' e2m1 4 0) (.zero .minus) rfl (by decide) (by decide)⟩

theorem witness_OperationsChangeOnlyTheOutputs_samePort :
    ∃ t, exec (.decode 23) (at' e2m1 4 0x17) = .next t ∧ encode (.decode 23) = (at' e2m1 4 0x17).bits.toNat :=
  ⟨_, rfl, rfl⟩

theorem witness_OutputsFollowTheInputAtAnyTime :
    (∃ t, elaborate ⟨8, 5, 2, 15, true, 0⟩ 8 0x1FF = .next t) ∧ ∃ t, exec (.decode 23) (at' e2m1 4 0) = .next t :=
  ⟨⟨_, rfl⟩, _, rfl⟩

theorem witness_NothingIsStoredBesideTheInput :
    ((at' e2m1 4 0).present 0x0F).Settled ∧ ((at' e2m1 4 0x17).present 0x0F).Settled ∧
      ((at' e2m1 4 0).present 0x0F).inst = ((at' e2m1 4 0x17).present 0x0F).inst ∧
      ((at' e2m1 4 0).present 0x0F).bits.toNat = ((at' e2m1 4 0x17).present 0x0F).bits.toNat :=
  ⟨rfl, rfl, rfl, rfl⟩

theorem witness_StepRunsTheDecodedOperation :
    decodeInteger (at' e2m1 4 0x17).inst (at' e2m1 4 0x17).bits.toNat = .ok (.decode 23) ∧
      decodeTableWord 8 0x7F = some (.e5m2Nan .plus 3) := by decide

theorem witness_DecodeOfEncodeIsTheOperation :
    (Instr.e5m2Normal .minus 30 3).wellFormedOn (at' e5m2 0 0).inst = true ∧
      (Instr.decode 16).wellFormedOn (at' e2m1 4 0).inst = true ∧
      (Instr.decode 15).wellFormedOn (at' x5 0 0).inst = true := by decide

theorem witness_FormatStatements :
    (at' e5m2 8 0x7C).inst.desc = e5m2 ∧ (at' e4m3 0 0xFE).inst.desc = e4m3 ∧ (at' e2m1 4 0x0F).inst.desc = e2m1 ∧
      (at' e5m2 8 0x7C).InRange ∧ (at' e4m3 0 0xFE).InRange ∧ (at' e2m1 4 0x0F).InRange := by
  refine ⟨rfl, rfl, rfl, ?_, ?_, ?_⟩ <;> show _ < _ <;> decide

theorem witness_BinaryStringReadsBack : (5 : Nat) < 2 ^ 4 := by decide

theorem witness_DecimalDigitsAreExact : (448 : Nat) ≠ 0 := by decide

theorem witness_ErrPortIsTheRangeTest : (at' e2m1 0 0).inst.busw = (at' e2m1 0 0).inst.desc.W := rfl

theorem witness_OutOfRangeInputIsARangeViolation : ¬(at' e2m1 4 0x10).InRange := by
  show ¬_ < _
  decide

theorem witness_EveryPatternGivesOneAllowedValue : (at' e2m1 4 0x0F).InRange := by
  show _ < _
  decide

theorem witness_StepSettlesTheOutputs : ∃ t, step (at' e2m1 4 0x17) = .next t :=
  ⟨_, rfl⟩

theorem witness_EveryOperationKeepsTheOutputsCanonical :
    (at' e2m1 4 0x17).Inv ∧ ∃ t, exec (.decode 23) (at' e2m1 4 0x17) = .next t :=
  ⟨.inr ⟨.zero .plus, trivial, rfl⟩, _, rfl⟩

theorem witness_StepKeepsTheOutputsCanonical : State.reset.Inv ∧ ∃ t, step State.reset = .next t :=
  ⟨.inr ⟨.zero .plus, trivial, rfl⟩, _, rfl⟩

end Sys2Proof.Tests
end

section
/-!
PROOFS. The width of the exponent port (00_scope.md R9).
-/

namespace Sys2Proof.Machine

/-- A signed vector has a wire even where its value is 0. -/
theorem one_le_signedWidth (x : Int) : 1 ≤ signedWidth x := Nat.le_add_left ..

theorem one_le_expw (d : Descriptor) : 1 ≤ expw d :=
  le_max_of_le_left (one_le_signedWidth _)

/-- The bound of the exponent field as R9 writes it: a field of no wires counts as `e_eff = 1`. -/
theorem maxExp_eq_ite (d : Descriptor) :
    maxExp d = if d.E = 0 then 1 - d.bias else 2 ^ d.E - 1 - d.bias := by
  unfold maxExp
  split
  · next hE => simp [hE]
  · next hE =>
    have htwo : 2 ≤ 2 ^ d.E := Nat.le_self_pow hE 2
    rw [Nat.max_eq_right (by omega), Nat.cast_sub (by omega)]
    simp

theorem minExp_le_maxExp (d : Descriptor) : minExp d ≤ maxExp d := by
  unfold minExp maxExp
  omega

/-- The two ends of the exponent range bound the port: the other two bounds follow from `minExp_le_maxExp`. -/
theorem expw_le_iff (d : Descriptor) (k : Nat) :
    expw d ≤ k + 1 ↔ -(2 ^ k) ≤ minExp d ∧ maxExp d < 2 ^ k := by
  have hle := minExp_le_maxExp d
  rw [expw, max_le_iff, signedWidth_le_iff, signedWidth_le_iff]
  constructor
  · rintro ⟨⟨hlo, -⟩, -, hhi⟩
    exact ⟨hlo, hhi⟩
  · rintro ⟨hlo, hhi⟩
    exact ⟨⟨hlo, hle.trans_lt hhi⟩, hlo.trans hle, hhi⟩

/-- Settles O4, by `expw_le_iff` at `n - 1`. -/
theorem exponentPortWidthIsTheLeastThatFits : Obligations.ExponentPortWidthIsTheLeastThatFits := by
  intro d n hn
  obtain ⟨k, rfl⟩ := Nat.exists_eq_add_of_le' hn
  refine ⟨one_le_expw d, ?_⟩
  rw [expw_le_iff, maxExp_eq_ite, minExp, Nat.add_sub_cancel, Int.le_sub_one_iff]

end Sys2Proof.Machine
end

section
/-!
PROOFS. A pattern and its fields: taking the fields of a packed pattern gives them back (30_encoding.md R41,
40_extract.md R59).
-/

namespace Sys2Proof

theorem Sign.bit_toNat_lt (s : Sign) : s.bit.toNat < 2 := s.bit.isLt

/-- The two cuts of a pattern, below its sign bit and below its exponent field, as two divisions with remainder. -/
theorem pack_eq (d : Descriptor) (s : Sign) (e m : Nat) :
    pack d s e m = 2 ^ d.M * (2 ^ d.E * s.bit.toNat + e) + m := by
  rw [pack, d.W_sub_one, pow_add]
  ring

theorem pack_lt (d : Descriptor) (s : Sign) {e m : Nat} (he : e < 2 ^ d.E) (hm : m < 2 ^ d.M) :
    pack d s e m < 2 ^ d.W := by
  have hhigh : 2 ^ d.E * s.bit.toNat + e < 2 * 2 ^ d.E := Nat.mul_add_lt_mul_of_lt_of_lt s.bit_toNat_lt he
  calc pack d s e m = 2 ^ d.M * (2 ^ d.E * s.bit.toNat + e) + m := pack_eq d s e m
    _ < 2 * 2 ^ d.E * 2 ^ d.M := Nat.mul_add_lt_mul_of_lt_of_lt hhigh hm
    _ = 2 ^ d.W := by rw [← d.sum]; ring

namespace Machine

theorem mantissaField_pack (d : Descriptor) (s : Sign) (e : Nat) {m : Nat} (hm : m < 2 ^ d.M) :
    mantissaField d (pack d s e m) = m := by
  rw [mantissaField, slice_eq_div_mod, pack_eq, pow_zero, Nat.div_one, Nat.mul_add_mod, Nat.mod_eq_of_lt hm]

/-- Cutting the mantissa field off. -/
theorem pack_div_two_pow_M (d : Descriptor) (s : Sign) (e : Nat) {m : Nat} (hm : m < 2 ^ d.M) :
    pack d s e m / 2 ^ d.M = 2 ^ d.E * s.bit.toNat + e := by
  rw [pack_eq, Nat.mul_add_div (Nat.two_pow_pos _), Nat.div_eq_of_lt hm, Nat.add_zero]

theorem exponentField_pack (d : Descriptor) (s : Sign) {e m : Nat} (he : e < 2 ^ d.E) (hm : m < 2 ^ d.M) :
    exponentField d (pack d s e m) = e := by
  rw [exponentField, slice_eq_div_mod, pack_div_two_pow_M d s e hm, Nat.mul_add_mod, Nat.mod_eq_of_lt he]

theorem signBit_pack (d : Descriptor) (s : Sign) {e m : Nat} (he : e < 2 ^ d.E) (hm : m < 2 ^ d.M) :
    signBit d (pack d s e m) = s.bit := by
  have hslice : slice (pack d s e m) (d.W - 1) 1 = s.bit.toNat := by
    rw [slice_eq_div_mod, d.W_sub_one, Nat.add_comm, pow_add, ← Nat.div_div_eq_div_mul, pack_div_two_pow_M d s e hm,
      Nat.mul_add_div (Nat.two_pow_pos _), Nat.div_eq_of_lt he, Nat.add_zero, pow_one,
      Nat.mod_eq_of_lt s.bit_toNat_lt]
  rw [signBit, hslice, BitVec.ofNat_toNat, BitVec.setWidth_eq]

end Machine

end Sys2Proof
end

section
/-!
PROOFS. The five arms of R83 as one Decoded Value: the block and the composition of the four sub-blocks both drive its
port image, and every descriptor allows it.
-/

namespace Sys2Proof.Machine

/-- The Decoded Value of a pattern's fields, by the five arms of 43_output_mux.md R83. -/
def fiveArms (d : Descriptor) (sg : Sign) (e m : Nat) : DecodedValue :=
  if e = 0 then
    if m = 0 then .zero sg else .finite sg m (1 - d.bias)
  else if e = 2 ^ d.E - 1 ∧ d.hasInf = true ∧ m = 0 then .infinity sg
  else if e = 2 ^ d.E - 1 ∧ m ∈ nanCodes d then .nan
  else .finite sg (2 ^ d.M + m) (e - d.bias)

/-- On a pattern the block drives the port image of the five arms' value. -/
theorem block_eq_portImage_fiveArms (u : Instance) (p : Nat) (hp : p < 2 ^ u.desc.W) :
    block u p = portImage u.desc
      (fiveArms u.desc (Sign.ofBit (signBit u.desc p)) (exponentField u.desc p) (mantissaField u.desc p)) := by
  simp only [block, fiveArms, if_neg (Nat.not_le.mpr hp)]
  split_ifs <;> simp only [portImage, Sign.bit_ofBit]

/-- The classifier's chain in the order of the five arms: the two tests of an exponent field 0 made one split. -/
theorem classify_eq (d : Descriptor) (e m : Nat) :
    classify d e m =
      if e = 0 then
        if m = 0 then .zero else .subnormal
      else if e = 2 ^ d.E - 1 ∧ d.hasInf = true ∧ m = 0 then .inf
      else if e = 2 ^ d.E - 1 ∧ m ∈ nanCodes d then .nan
      else .normal := by
  simp only [classify, expIsZero, expIsMax, manIsZero, manIsNan, mem_nanCodes, Bool.and_eq_true, beq_iff_eq, and_assoc]
  by_cases he : e = 0
  · simp [he]
  · simp [he]

@[simp] theorem hiddenBit_zero : hiddenBit 0 = 0 := rfl

theorem hiddenBit_of_ne_zero {e : Nat} (he : e ≠ 0) : hiddenBit e = 1 := by
  simp [hiddenBit, expIsZero, he]

@[simp] theorem eEff_zero : eEff 0 = 1 := rfl

theorem eEff_of_ne_zero {e : Nat} (he : e ≠ 0) : eEff e = e := by
  simp [eEff, expIsZero, he]

/-- For the two classes with a Finite result the mux passes the subtractor's payload (43_output_mux.md R82). -/
theorem assemble_of_isFinite (d : Descriptor) {c : Cls} (sg : Sign) (e m : Nat) (hc : isFinite c = true) :
    assemble d c sg.bit e m = portImage d (.finite sg (hiddenBit e * 2 ^ d.M + m) (eEff e - d.bias)) := by
  obtain rfl | rfl : c = .subnormal ∨ c = .normal := by simpa [isFinite] using hc
  · rfl
  · rfl

/-- The four sub-blocks, given the class of the fields, drive the image of the five arms' value. -/
theorem assemble_classify (d : Descriptor) (sg : Sign) (e m : Nat) :
    assemble d (classify d e m) sg.bit e m = portImage d (fiveArms d sg e m) := by
  rw [classify_eq, fiveArms]
  by_cases he : e = 0
  · subst he
    by_cases hm : m = 0
    · subst hm
      rfl
    · simp [hm, assemble_of_isFinite d sg 0 m (c := .subnormal) rfl]
  · simp only [if_neg he]
    split_ifs
    · rfl
    · rfl
    · rw [assemble_of_isFinite d sg e m rfl, hiddenBit_of_ne_zero he, eEff_of_ne_zero he, one_mul]

/-- A field that is not 0 has a wire. -/
theorem one_le_E_of_ne_zero {d : Descriptor} {e : Nat} (he : e < 2 ^ d.E) (h0 : e ≠ 0) : 1 ≤ d.E :=
  Nat.one_le_iff_ne_zero.mpr fun hE => h0 (by simpa [hE] using he)

/-- The exponent of a Finite result is in the range of the bias subtractor (41_bias_exponent.md R66). -/
theorem allows_finite {d : Descriptor} (sg : Sign) {sig eff : Nat} (hs : 1 ≤ sig) (hs' : sig < 2 ^ (d.M + 1))
    (h1 : 1 ≤ eff) (heff : eff ≤ max 1 (2 ^ d.E - 1)) : Allows d (.finite sg sig (eff - d.bias)) := by
  refine ⟨hs, hs', ?_, ?_⟩
  · unfold minExp; omega
  · unfold maxExp; omega

/-- The arms give nothing else than a Decoded Value of the descriptor (42_classify.md R77). -/
theorem allows_fiveArms (d : Descriptor) (sg : Sign) {e m : Nat} (he : e < 2 ^ d.E) (hm : m < 2 ^ d.M) :
    Allows d (fiveArms d sg e m) := by
  have hsig : 2 ^ (d.M + 1) = 2 ^ d.M + 2 ^ d.M := by ring
  unfold fiveArms
  split
  · split
    · trivial
    · next hm0 => exact allows_finite sg (eff := 1) (by omega) (by omega) le_rfl (le_max_left ..)
  · next he0 =>
    have hE := one_le_E_of_ne_zero he he0
    split
    · next hinf => exact ⟨hE, hinf.2.1⟩
    · next hinf =>
      split
      · next hnan => exact ⟨hE, m, hnan.2, fun h => hinf ⟨hnan.1, h⟩⟩
      · exact allows_finite sg (by omega) (by omega) (by omega) (by omega)

end Sys2Proof.Machine
end

section
/-!
PROOFS. What executing can do, said once: the operation's value is presented at the port. The statements about the state
(10_state.md) follow.
-/

namespace Sys2Proof.Machine

/-- A class row that completes is its pattern presented: the pattern is one of the format, and the sub-blocks drive what
the block drives for it. -/
theorem deliver_presents {mn : String} {f : FormatLabel} {c : Cls} {sg : Sign} {e m : Nat} {s t : State}
    (h : deliver mn f c sg e m s = .next t) (he : e < 2 ^ (descriptorOf f).E) (hm : m < 2 ^ (descriptorOf f).M) :
    pack (descriptorOf f) sg e m < 2 ^ s.inst.busw ∧
      t = s.present (BitVec.ofNat _ (pack (descriptorOf f) sg e m)) := by
  obtain ⟨⟨hf, rfl⟩, rfl⟩ := (deliver_eq_next_iff ..).mp h
  rw [← (formatOf_eq_some_iff _ _).mp hf] at he hm ⊢
  have hW := pack_lt s.inst.desc sg he hm
  have hport : pack s.inst.desc sg e m < 2 ^ s.inst.busw := hW.trans_le (Nat.pow_le_pow_right two_pos s.inst.fits)
  refine ⟨hport, ?_⟩
  rw [State.present, zext_toNat _ _ hport, block_eq_portImage_fiveArms _ _ hW,
    signBit_pack _ _ he hm, exponentField_pack _ _ he hm, mantissaField_pack _ _ _ hm, Sign.ofBit_bit,
    assemble_classify]

/-- The inversion of exec: an operation that completes is its encoding, which the port carries, presented. -/
theorem exec_presents {i : Instr} {s t : State} (h : exec i s = .next t) :
    encode i < 2 ^ s.inst.busw ∧ t = s.present (BitVec.ofNat _ (encode i)) := by
  cases i with
  | decode b => exact (execDecode_eq_next_iff ..).mp h
  | e5m2Zero sg => exact deliver_presents (f := .e5m2) h (by decide) (by decide)
  | e5m2Subnormal sg m => exact deliver_presents (f := .e5m2) h (by decide) m.isLt
  | e5m2Inf sg => exact deliver_presents (f := .e5m2) h (by decide) (by decide)
  | e5m2Nan sg m => exact deliver_presents (f := .e5m2) h (by decide) m.isLt
  | e5m2Normal sg e m => exact deliver_presents (f := .e5m2) h e.isLt m.isLt
  | e4m3Zero sg => exact deliver_presents (f := .e4m3) h (by decide) (by decide)
  | e4m3Subnormal sg m => exact deliver_presents (f := .e4m3) h (by decide) m.isLt
  | e4m3Nan sg => exact deliver_presents (f := .e4m3) h (by decide) (by decide)
  | e4m3Normal sg e m => exact deliver_presents (f := .e4m3) h e.isLt m.isLt
  | e2m1Zero sg => exact deliver_presents (f := .e2m1) h (by decide) (by decide)
  | e2m1Subnormal sg => exact deliver_presents (f := .e2m1) h (by decide) (by decide)
  | e2m1Normal sg e m => exact deliver_presents (f := .e2m1) h e.isLt m.isLt

theorem State.present_settled (s : State) (b : BitVec s.inst.busw) : (s.present b).Settled := rfl

theorem State.reset_settled : State.reset.Settled := rfl

/-- Whatever the input, the block shows a violation or the image of an allowed value. -/
theorem block_canonical (u : Instance) (b : Nat) : Canonical (block u b) := by
  by_cases hb : b < 2 ^ u.desc.W
  · exact .inr ⟨_, allows_fiveArms u.desc _ (exponentField_lt ..) (mantissaField_lt ..),
      block_eq_portImage_fiveArms u b hb⟩
  · rw [block_of_outOfRange u b (Nat.not_lt.mp hb)]
    exact .inl rfl

/-- Outputs that follow the input are canonical. -/
theorem State.Settled.inv {s : State} (h : s.Settled) : s.Inv := by
  rw [State.Inv, h]
  exact block_canonical ..

/-- Settles O50: an operation that completes leaves a settled state. -/
theorem everyOperationKeepsTheOutputsCanonical : Obligations.EveryOperationKeepsTheOutputsCanonical := by
  intro i s t _ h
  obtain ⟨-, rfl⟩ := exec_presents h
  exact (s.present_settled _).inv

/-- Settles O51: a step executes the operation the port selects. -/
theorem stepKeepsTheOutputsCanonical : Obligations.StepKeepsTheOutputsCanonical :=
  fun s => everyOperationKeepsTheOutputsCanonical s.selected s

/-- Settles O52: the reset outputs are the block's for the input 0. -/
theorem outputsAreCanonicalAtReset : Obligations.OutputsAreCanonicalAtReset :=
  State.reset_settled.inv

/-- Settles O53: the block evaluated on the input 0 of an E5M2 block. -/
theorem resetOutputsFollowTheInput : Obligations.ResetOutputsFollowTheInput :=
  ⟨State.reset_settled, rfl, rfl, rfl⟩

/-- Settles O46: each of the five ways to put a value on the port drives the block's outputs for it. -/
theorem outputsFollowTheInputAtAnyTime : Obligations.OutputsFollowTheInputAtAnyTime := by
  refine ⟨State.reset_settled, ?_, State.present_settled, fun _ _ _ => rfl, ?_⟩
  · intro r upper bits t h
    obtain ⟨-, hfault⟩ | ⟨d, t', -, hnext, -, -, hout⟩ := elaborate_cases r upper bits
    · rw [hfault] at h
      cases h
    · rw [hnext] at h
      cases h
      exact hout
  · intro i s t h
    obtain ⟨-, rfl⟩ := exec_presents h
    exact s.present_settled _

/-- Settles O31, by the inversion of exec. -/
theorem operationsChangeOnlyTheOutputs : Obligations.OperationsChangeOnlyTheOutputs := by
  intro i s t h
  obtain ⟨hport, rfl⟩ := exec_presents h
  refine ⟨rfl, ?_, ⟨_, rfl⟩, fun hsame => ?_⟩
  · exact zext_toNat _ _ hport
  · rw [hsame, BitVec.ofNat_toNat, BitVec.setWidth_eq]
    exact ⟨_, rfl⟩

/-- A state after any evaluations differs from the one before in the port and the outputs alone. -/
theorem State.evaluations_eq_evaluate (s : State) (ns : List Nat) : ∃ b o, s.evaluations ns = s.evaluate b o := by
  induction ns generalizing s with
  | nil => exact ⟨s.bits, s.out, rfl⟩
  | cons n ns ih =>
    rw [State.evaluations]
    split
    · next t h =>
      obtain ⟨b, o, hrest⟩ := ih t
      obtain ⟨-, rfl⟩ := exec_presents h
      exact ⟨b, o, hrest⟩
    · exact ⟨s.bits, s.out, rfl⟩

/-- Settles O48: presenting an input overwrites all that the evaluations before it left. -/
theorem evaluationsHaveNoHistory : Obligations.EvaluationsHaveNoHistory := by
  intro s earlier n
  obtain ⟨b, o, h⟩ := s.evaluations_eq_evaluate earlier
  rw [h]
  exact ⟨rfl, rfl, rfl⟩

/-- Settles O47: the block's constants and its input fix the one field left, the outputs. -/
theorem nothingIsStoredBesideTheInput : Obligations.NothingIsStoredBesideTheInput := by
  rintro ⟨u, b, o⟩ ⟨_, b', o'⟩ hs ht rfl hbits
  obtain rfl : b = b' := BitVec.eq_of_toNat_eq hbits
  obtain rfl : o = o' := hs.trans ht.symm
  rfl

end Sys2Proof.Machine
end

section
/-!
PROOFS. The port image of an allowed value and the reading of the ports (10_state.md R24); the making of a descriptor
(R16, R17).
-/

namespace Sys2Proof.Machine

/-- The `exp` port holds every exponent between the two ends of the subtractor's range. -/
theorem signedWidth_le_expw {d : Descriptor} {x : Int} (hlo : minExp d ≤ x) (hhi : x ≤ maxExp d) :
    signedWidth x ≤ expw d := by
  obtain ⟨k, hk⟩ := Nat.exists_eq_add_of_le' (one_le_expw d)
  obtain ⟨hmin, hmax⟩ := (expw_le_iff d k).mp hk.le
  rw [hk, signedWidth_le_iff]
  exact ⟨hmin.trans hlo, hhi.trans_lt hmax⟩

/-- Reading the ports undoes the port image of every allowed value. -/
theorem readPorts_portImage {d : Descriptor} {v : DecodedValue} (hv : Allows d v) : readPorts (portImage d v) = v := by
  cases v with
  | zero s => simp [readPorts, portImage]
  | finite s sig exp =>
    obtain ⟨-, hsig, hlo, hhi⟩ := hv
    obtain ⟨hs, he⟩ := portImage_finite d s sig exp hsig (signedWidth_le_expw hlo hhi)
    have hread : readPorts (portImage d (.finite s sig exp)) =
        .finite (Sign.ofBit s.bit) (portImage d (.finite s sig exp)).sig.toNat
          (portImage d (.finite s sig exp)).exp.toInt := rfl
    rw [hread, hs, he, Sign.ofBit_bit]
  | infinity s => simp [readPorts, portImage]
  | nan => simp [readPorts, portImage]

/-- Settles O16: canonical outputs without an error are the image of an allowed value, which reading gives back. -/
theorem portImageIsABijection : Obligations.PortImageIsABijection := by
  intro d
  refine ⟨fun v => readPorts_portImage, ?_⟩
  rintro o (herr | ⟨v, hv, rfl⟩) h0
  · rw [herr] at h0
    cases h0
  · rw [readPorts_portImage hv]
    exact ⟨hv, rfl⟩

/-- Settles O3, by induction on the list of codes. -/
theorem nanMaskHoldsExactlyTheListedCodes : Obligations.NanMaskHoldsExactlyTheListedCodes := by
  intro M codes c
  induction codes with
  | nil => simp [nanMaskOf]
  | cons a as ih =>
    have hbit : (BitVec.twoPow (2 ^ M) a).getLsbD c = true ↔ c < 2 ^ M ∧ c = a := by
      rw [BitVec.getLsbD_twoPow, Bool.and_eq_true, decide_eq_true_eq, decide_eq_true_eq]
      constructor
      · rintro ⟨ha, rfl⟩
        exact ⟨ha, rfl⟩
      · rintro ⟨hc, rfl⟩
        exact ⟨hc, rfl⟩
    rw [nanMaskOf, BitVec.getLsbD_or, Bool.or_eq_true, ih, hbit, List.mem_cons, and_or_left]

/-- Settles O1: `mkDescriptor` tests exactly the condition of R17, under which no width is cut at 0. -/
theorem descriptorIsMadeExactlyFromValidFields : Obligations.DescriptorIsMadeExactlyFromValidFields := by
  intro r
  unfold mkDescriptor
  split
  · next h =>
    refine ⟨⟨fun _ => h, fun _ => ⟨_, rfl⟩⟩, ?_⟩
    rintro d ⟨⟩
    obtain ⟨hW, hE, hM, -⟩ := h
    exact ⟨Int.toNat_of_nonneg (by omega), Int.toNat_of_nonneg hE, Int.toNat_of_nonneg hM, rfl, rfl, fun _ => rfl⟩
  · next h => simp [h]

end Sys2Proof.Machine
end

section
/-!
PROOFS. Encoding the operation that a port value selects gives the value back (30_encoding.md R51), so a step presents
the value that is on the port already (20_memory.md R32).
-/

namespace Sys2Proof

/-- A row of the table loses no bit of a pattern that fits it: its fixed bits and its free letters are the pattern. -/
theorem TableRow.encode_make_of_fits (f : FormatLabel) :
    ∀ r ∈ rowsOf f, ∀ p < 2 ^ (Machine.descriptorOf f).W, r.fits p = true → encode (r.make p) = p := by
  cases f with
  | e5m2 => decide +kernel
  | e4m3 => decide +kernel
  | e2m1 => decide +kernel

theorem encode_decodeRow (f : FormatLabel) {p : Nat} (hp : p < 2 ^ (Machine.descriptorOf f).W) :
    encode (decodeRow (rowsOf f) p) = p := by
  unfold decodeRow
  split
  · next r hr =>
    have hfits : r.fits p = true := List.find?_some (p := fun r : TableRow => r.fits p) hr
    exact TableRow.encode_make_of_fits f r (List.mem_of_find?_eq_some hr) p hp hfits
  · rfl

/-- The generic operation carries the value itself; elsewhere a row of the format applies. -/
theorem encode_decodeValue (u : Instance) (n : Nat) : encode (decodeValue u n) = n := by
  by_cases hn : n < 2 ^ u.desc.W
  · cases hf : Machine.formatOf u.desc with
    | none =>
      rw [decodeValue_of_noFormat u n hf]
      rfl
    | some f =>
      rw [decodeValue_of_format u n f hn hf]
      exact encode_decodeRow f ((Machine.formatOf_eq_some_iff u.desc f).mp hf ▸ hn)
  · rw [decodeValue_of_outOfRange u n (Nat.not_lt.mp hn)]
    rfl

namespace Machine

theorem State.encode_selected (s : State) : encode s.selected = s.bits.toNat :=
  encode_decodeValue s.inst s.bits.toNat

/-- The inversion of step: it presents the value that is on the port. -/
theorem step_presents {s t : State} (h : step s = .next t) : t = s.present s.bits := by
  obtain ⟨-, ht⟩ := exec_presents h
  rwa [s.encode_selected, BitVec.ofNat_toNat, BitVec.setWidth_eq] at ht

/-- An operation reads the block's constants alone, neither the port nor the outputs (10_state.md R13). -/
theorem exec_evaluate (i : Instr) (s : State) (b : BitVec s.inst.busw) (o : Outputs s.inst.desc) :
    exec i (s.evaluate b o) = exec i s := by
  cases i <;> rfl

/-- The outputs that stood before make no difference to a step. -/
theorem step_drive (s : State) (o : Outputs s.inst.desc) : step (s.drive o) = step s :=
  exec_evaluate s.selected s s.bits o

/-- Settles O49: a step drives the block's outputs for the value on the port, and the next step does not see them. -/
theorem stepSettlesTheOutputs : Obligations.StepSettlesTheOutputs := by
  intro s t h
  obtain rfl := step_presents h
  exact ⟨s.present_settled s.bits, (step_drive s _).trans h⟩

end Machine

end Sys2Proof
end

section
/-!
PROOFS. The decoder and the encoder, each the inverse of the other on the operations of an instance (30_encoding.md R48,
R51), and where an operation completes.
-/

namespace Sys2Proof

open Machine

/-! ### The operations of an instance, by the format of their row -/

theorem Instr.format_eq_none_iff (i : Instr) : i.format = none ↔ ∃ b, i = .decode b := by
  cases i <;> simp [Instr.format]

/-- The generic operation belongs to the values that no row is about. -/
theorem Instr.wellFormedOn_decode (u : Instance) (b : Nat) :
    (Instr.decode b).wellFormedOn u = true ↔
      b < 2 ^ u.busw ∧ (formatOf u.desc = none ∨ 2 ^ u.desc.W ≤ b) := by
  simp [Instr.wellFormedOn, Instr.wellFormed, Instr.on]

/-- A class row belongs to the instances of its format. -/
theorem Instr.on_of_format {i : Instr} {f : FormatLabel} (hi : i.format = some f) (u : Instance) :
    i.on u = decide (formatOf u.desc = some f) := by
  rw [← hi]
  cases i with
  | decode b => cases hi
  | _ => rfl

theorem Instr.wellFormedOn_of_format {i : Instr} {f : FormatLabel} (hi : i.format = some f) (u : Instance) :
    i.wellFormedOn u = true ↔ i.wellFormed = true ∧ formatOf u.desc = some f := by
  rw [Instr.wellFormedOn, Instr.on_of_format hi, Bool.and_eq_true, decide_eq_true_eq]

/-- A class row by the fields of its pattern: it runs as the shared form `deliver` on them, and its operands are
well-formed exactly when the classifier puts them in the row's class (R47). -/
theorem Instr.fields_of_format {i : Instr} {f : FormatLabel} (hi : i.format = some f) :
    ∃ mn c sg e m, e < 2 ^ (descriptorOf f).E ∧ m < 2 ^ (descriptorOf f).M ∧
      encode i = pack (descriptorOf f) sg e m ∧ (∀ s, exec i s = deliver mn f c sg e m s) ∧
      (i.wellFormed = true ↔ classify (descriptorOf f) e m = c) := by
  cases i with
  | decode b => cases hi
  | e5m2Zero s => cases hi; exact ⟨_, _, _, _, _, by decide, by decide, rfl, fun _ => rfl, iff_of_true rfl rfl⟩
  | e5m2Subnormal s m =>
    cases hi
    exact ⟨_, _, _, _, _, by decide, m.isLt, rfl, fun _ => rfl, by revert m; cases s <;> decide⟩
  | e5m2Inf s => cases hi; exact ⟨_, _, _, _, _, by decide, by decide, rfl, fun _ => rfl, iff_of_true rfl rfl⟩
  | e5m2Nan s m =>
    cases hi
    exact ⟨_, _, _, _, _, by decide, m.isLt, rfl, fun _ => rfl, by revert m; cases s <;> decide⟩
  | e5m2Normal s e m =>
    cases hi
    exact ⟨_, _, _, _, _, e.isLt, m.isLt, rfl, fun _ => rfl, by revert e m; cases s <;> decide +kernel⟩
  | e4m3Zero s => cases hi; exact ⟨_, _, _, _, _, by decide, by decide, rfl, fun _ => rfl, iff_of_true rfl rfl⟩
  | e4m3Subnormal s m =>
    cases hi
    exact ⟨_, _, _, _, _, by decide, m.isLt, rfl, fun _ => rfl, by revert m; cases s <;> decide⟩
  | e4m3Nan s => cases hi; exact ⟨_, _, _, _, _, by decide, by decide, rfl, fun _ => rfl, iff_of_true rfl rfl⟩
  | e4m3Normal s e m =>
    cases hi
    exact ⟨_, _, _, _, _, e.isLt, m.isLt, rfl, fun _ => rfl, by revert e m; cases s <;> decide +kernel⟩
  | e2m1Zero s => cases hi; exact ⟨_, _, _, _, _, by decide, by decide, rfl, fun _ => rfl, iff_of_true rfl rfl⟩
  | e2m1Subnormal s => cases hi; exact ⟨_, _, _, _, _, by decide, by decide, rfl, fun _ => rfl, iff_of_true rfl rfl⟩
  | e2m1Normal s e m =>
    cases hi
    exact ⟨_, _, _, _, _, e.isLt, m.isLt, rfl, fun _ => rfl, by revert e m; cases s <;> decide⟩

theorem encode_lt_of_format {i : Instr} {f : FormatLabel} (hi : i.format = some f) :
    encode i < 2 ^ (descriptorOf f).W := by
  obtain ⟨-, -, sg, e, m, he, hm, henc, -⟩ := Instr.fields_of_format hi
  exact henc ▸ pack_lt _ sg he hm

/-- The port of an instance carries the encoding of each of its operations (10_state.md R18). -/
theorem encode_lt_of_wellFormedOn {u : Instance} {i : Instr} (h : i.wellFormedOn u = true) : encode i < 2 ^ u.busw := by
  cases hi : i.format with
  | none =>
    obtain ⟨b, rfl⟩ := i.format_eq_none_iff.mp hi
    exact Laws.EncodingFits.decode b u h
  | some f => exact Laws.EncodingFits.of_format i f (Instr.on_of_format hi) (encode_lt_of_format hi) u h

/-! ### Decoding an encoding -/

/-- The rows of a format read the operands of each of its operations back from the encoding: no earlier row takes a
pattern of well-formed operands (R48, first match by priority). -/
theorem decodeRow_encode {i : Instr} {f : FormatLabel} (hi : i.format = some f) (hwf : i.wellFormed = true) :
    decodeRow (rowsOf f) (encode i) = i := by
  cases i with
  | decode b => cases hi
  | e5m2Zero s => cases hi; cases s <;> decide
  | e5m2Subnormal s m => cases hi; revert m; cases s <;> decide
  | e5m2Inf s => cases hi; cases s <;> decide
  | e5m2Nan s m => cases hi; revert m; cases s <;> decide
  | e5m2Normal s e m => cases hi; revert e m; cases s <;> decide +kernel
  | e4m3Zero s => cases hi; cases s <;> decide
  | e4m3Subnormal s m => cases hi; revert m; cases s <;> decide
  | e4m3Nan s => cases hi; cases s <;> decide
  | e4m3Normal s e m => cases hi; revert e m; cases s <;> decide +kernel
  | e2m1Zero s => cases hi; cases s <;> decide
  | e2m1Subnormal s => cases hi; cases s <;> decide
  | e2m1Normal s e m => cases hi; revert e m; cases s <;> decide

theorem decodeValue_encode {u : Instance} {i : Instr} (h : i.wellFormedOn u = true) : decodeValue u (encode i) = i := by
  cases hi : i.format with
  | none =>
    obtain ⟨b, rfl⟩ := i.format_eq_none_iff.mp hi
    obtain ⟨-, hf | hb⟩ := (Instr.wellFormedOn_decode u b).mp h
    · exact decodeValue_of_noFormat u b hf
    · exact decodeValue_of_outOfRange u b hb
  | some f =>
    obtain ⟨hwf, hf⟩ := (Instr.wellFormedOn_of_format hi u).mp h
    have hd := (formatOf_eq_some_iff u.desc f).mp hf
    rw [decodeValue_of_format u _ f (hd ▸ encode_lt_of_format hi) hf, decodeRow_encode hi hwf]

/-- Settles O34: the port carries the encoding whole, and the decoder reads the operation back from it. -/
theorem decodeOfEncodeIsTheOperation : Obligations.DecodeOfEncodeIsTheOperation := by
  intro u i h
  rw [decodeInput, zext_toNat _ _ (encode_lt_of_wellFormedOn h), decodeValue_encode h]

/-- Settles O35: the generic operation carries the value, and a row of the table loses no bit of its pattern. -/
theorem encodeOfDecodeIsTheInput : Obligations.EncodeOfDecodeIsTheInput :=
  fun u b => encode_decodeValue u b.toNat

/-! ### What the decoder answers -/

/-- The row that applies to a pattern is one of the format, and its free letters are operands of the row (R47, R48). -/
theorem decodeRow_wellFormed (f : FormatLabel) :
    ∀ p < 2 ^ (descriptorOf f).W,
      (decodeRow (rowsOf f) p).format = some f ∧ (decodeRow (rowsOf f) p).wellFormed = true := by
  cases f with
  | e5m2 => decide +kernel
  | e4m3 => decide +kernel
  | e2m1 => decide +kernel

/-- Settles O33, along the three answers of the decoder. -/
theorem decoderAnswersWellFormedOperations : Obligations.DecoderAnswersWellFormedOperations := by
  intro u b
  rw [decodeInput]
  by_cases hb : b.toNat < 2 ^ u.desc.W
  · cases hf : formatOf u.desc with
    | none =>
      rw [decodeValue_of_noFormat u _ hf, Instr.wellFormedOn_decode]
      exact ⟨b.isLt, .inl hf⟩
    | some f =>
      have hd := (formatOf_eq_some_iff u.desc f).mp hf
      obtain ⟨hfmt, hwf⟩ := decodeRow_wellFormed f b.toNat (hd ▸ hb)
      rw [decodeValue_of_format u _ f hb hf, Instr.wellFormedOn_of_format hfmt]
      exact ⟨hwf, hf⟩
  · have hb' := Nat.not_lt.mp hb
    rw [decodeValue_of_outOfRange u _ hb', Instr.wellFormedOn_decode]
    exact ⟨b.isLt, .inr hb'⟩

/-- Settles O36: each word evaluated. -/
theorem tableWordsDecode : Obligations.TableWordsDecode := by
  refine ⟨?_, ?_, ?_, ?_, ?_⟩ <;> decide

end Sys2Proof

namespace Sys2Proof.Machine

/-! ### Where an operation completes -/

/-- Settles O30: well-formed on the instance is the condition that `deliver` tests. -/
theorem classRowsRunExactlyWhereTheyApply : Obligations.ClassRowsRunExactlyWhereTheyApply := by
  intro i f s hi
  obtain ⟨mn, c, sg, e, m, -, -, henc, hexec, hwf⟩ := Instr.fields_of_format hi
  have happlies : i.wellFormedOn s.inst = true ↔
      formatOf s.inst.desc = some f ∧ classify s.inst.desc e m = c := by
    rw [Instr.wellFormedOn_of_format hi, hwf, and_comm]
    refine and_congr_right fun hf => ?_
    rw [(formatOf_eq_some_iff _ _).mp hf]
  rw [hexec, henc]
  constructor
  · intro h
    obtain ⟨hf, hc⟩ := happlies.mp h
    rw [← (formatOf_eq_some_iff _ _).mp hf]
    exact ⟨_, deliver_of_applies mn f c sg e m s hf hc⟩
  · intro h
    exact ⟨mn, deliver_of_notApplies mn f c sg e m s (by rw [← happlies, h]; decide)⟩

theorem exec_completes {i : Instr} {s : State} (h : i.wellFormedOn s.inst = true) : ∃ t, exec i s = .next t := by
  cases hi : i.format with
  | none =>
    obtain ⟨b, rfl⟩ := i.format_eq_none_iff.mp hi
    exact ⟨_, execDecode_of_lt b s ((Instr.wellFormedOn_decode s.inst b).mp h).1⟩
  | some f =>
    obtain ⟨o, ho⟩ := (classRowsRunExactlyWhereTheyApply i f s hi).1 h
    exact ⟨_, ho⟩

/-- Every step completes: the decoder answers an operation of the instance, which presents the value on the port. -/
theorem step_eq_present (s : State) : step s = .next (s.present s.bits) := by
  obtain ⟨t, ht⟩ := exec_completes (decoderAnswersWellFormedOperations s.inst s.bits)
  exact step_presents ht ▸ ht

/-- Settles O45, with the Decoded Value of the five arms. -/
theorem everyPatternGivesOneAllowedValue : Obligations.EveryPatternGivesOneAllowedValue := by
  intro s hs
  have hblock := block_eq_portImage_fiveArms s.inst s.bits.toNat hs
  have hallows := allows_fiveArms s.inst.desc (Sign.ofBit (signBit s.inst.desc s.bits.toNat))
    (exponentField_lt s.inst.desc s.bits.toNat) (mantissaField_lt s.inst.desc s.bits.toNat)
  refine ⟨_, hallows, ?_, ?_⟩
  · rw [step_eq_present, State.present, hblock, State.evaluate_bits_self]
  · simp [State.result, readPorts_portImage hallows]

end Sys2Proof.Machine
end

section
/-!
PROOFS. The field extractor as the wires of the port (40_extract.md R55 to R57) and as a bijection between the patterns
and the triples of in-range fields (R59).
-/

namespace Sys2Proof

/-- A slice, wire by wire. -/
theorem testBit_slice (p lo len i : Nat) : (slice p lo len).testBit i = (decide (i < len) && p.testBit (lo + i)) := by
  rw [slice, Nat.testBit_mod_two_pow, Nat.testBit_shiftRight]

/-- Flipping a wire above a slice leaves the slice alone. -/
theorem slice_xor_two_pow_of_le {lo len k : Nat} (hk : lo + len ≤ k) (p : Nat) :
    slice (p ^^^ 2 ^ k) lo len = slice p lo len := by
  refine Nat.eq_of_testBit_eq fun i => ?_
  rw [testBit_slice, testBit_slice]
  by_cases hi : i < len
  · have hne : k ≠ lo + i := by omega
    rw [Nat.testBit_xor, Nat.testBit_two_pow_of_ne hne, Bool.xor_false]
  · rw [decide_eq_false hi, Bool.false_and, Bool.false_and]

namespace Machine

theorem signBit_eq_ofBool (d : Descriptor) (p : Nat) : signBit d p = BitVec.ofBool (p.testBit (d.W - 1)) := by
  refine BitVec.eq_of_getLsbD_eq fun i hi => ?_
  obtain rfl : i = 0 := by omega
  rw [signBit, BitVec.getLsbD_ofNat, testBit_slice]
  simp

/-- Settles O6, each field as a slice of the port's value. -/
theorem fieldsAreSlicesOfThePort : Obligations.FieldsAreSlicesOfThePort := by
  intro u b
  refine ⟨fun i => ⟨signBit_eq_ofBool u.desc b.toNat, testBit_slice .., ?_⟩, fun hE => ?_, fun hM => ?_⟩
  · rw [mantissaField, testBit_slice, Nat.zero_add, BitVec.getLsbD]
  · rw [exponentField, hE, slice_zero_width]
  · rw [mantissaField, hM, slice_zero_width]

/-! ### A flip of the sign bit -/

theorem signBit_xor_sign (d : Descriptor) (p : Nat) : signBit d (p ^^^ 2 ^ (d.W - 1)) = ~~~(signBit d p) := by
  rw [signBit_eq_ofBool, signBit_eq_ofBool, Nat.testBit_xor, Nat.testBit_two_pow_self, Bool.xor_true]
  cases p.testBit (d.W - 1) <;> rfl

theorem exponentField_xor_sign (d : Descriptor) (p : Nat) :
    exponentField d (p ^^^ 2 ^ (d.W - 1)) = exponentField d p :=
  slice_xor_two_pow_of_le (by rw [d.W_sub_one, Nat.add_comm]) p

theorem mantissaField_xor_sign (d : Descriptor) (p : Nat) :
    mantissaField d (p ^^^ 2 ^ (d.W - 1)) = mantissaField d p :=
  slice_xor_two_pow_of_le (by rw [d.W_sub_one]; omega) p

/-! ### Packing the fields of a pattern -/

/-- The sign bit of a pattern is all that stands above its two fields. -/
theorem signBit_toNat_of_lt {d : Descriptor} {p : Nat} (hp : p < 2 ^ d.W) :
    (signBit d p).toNat = p / 2 ^ d.M / 2 ^ d.E := by
  have htop : p / 2 ^ d.M / 2 ^ d.E < 2 := by
    have hW : 2 ^ d.W = 2 * (2 ^ d.M * 2 ^ d.E) := by rw [← d.sum]; ring
    rwa [Nat.div_div_eq_div_mul, Nat.div_lt_iff_lt_mul (by positivity), ← hW]
  have hslice : slice p (d.W - 1) 1 = p / 2 ^ d.M / 2 ^ d.E := by
    rw [slice_eq_div_mod, d.W_sub_one, Nat.add_comm, pow_add, ← Nat.div_div_eq_div_mul, pow_one, Nat.mod_eq_of_lt htop]
  rw [signBit, hslice, BitVec.toNat_ofNat, pow_one, Nat.mod_eq_of_lt htop]

/-- Packing the fields of a pattern gives it back: the other direction to the fields of a packed pattern. -/
theorem pack_fields {d : Descriptor} {p : Nat} (hp : p < 2 ^ d.W) :
    pack d (Sign.ofBit (signBit d p)) (exponentField d p) (mantissaField d p) = p := by
  have hM : mantissaField d p = p % 2 ^ d.M := by
    rw [mantissaField, slice_eq_div_mod, pow_zero, Nat.div_one]
  rw [pack_eq, Sign.bit_ofBit, signBit_toNat_of_lt hp, exponentField, slice_eq_div_mod, Nat.div_add_mod, hM,
    Nat.div_add_mod]

/-- Settles O5: packing and taking the fields undo each other. -/
theorem fieldsLoseNothing : Obligations.FieldsLoseNothing := by
  intro d
  refine ⟨fun p hp => ⟨?_, exponentField_lt d p, mantissaField_lt d p, signBit_xor_sign d p,
    exponentField_xor_sign d p, mantissaField_xor_sign d p⟩, fun s e m he hm => ?_⟩
  · simpa only [pack, Sign.bit_ofBit] using (pack_fields hp).symm
  · have hsign : signBit d (pack d (Sign.ofBit s) e m) = s := by rw [signBit_pack d _ he hm, Sign.bit_ofBit]
    refine ⟨pack d (Sign.ofBit s) e m, ⟨pack_lt d _ he hm, hsign, exponentField_pack d _ he hm,
      mantissaField_pack d _ e hm⟩, ?_⟩
    rintro q hq rfl rfl rfl
    exact (pack_fields hq).symm

end Machine

end Sys2Proof
end

section
/-!
PROOFS. The bias subtractor and the significand (41_bias_exponent.md R62 to R66): both payloads are the integers of
their formulas, with nothing cut off.
-/

namespace Sys2Proof.Machine

theorem hiddenBit_le_one (e : Nat) : hiddenBit e ≤ 1 := by
  by_cases he : e = 0
  · rw [he, hiddenBit_zero]
    exact Nat.zero_le 1
  · rw [hiddenBit_of_ne_zero he]

theorem one_le_eEff (e : Nat) : 1 ≤ eEff e := by
  by_cases he : e = 0
  · rw [he, eEff_zero]
  · rw [eEff_of_ne_zero he]
    exact Nat.one_le_iff_ne_zero.mpr he

theorem eEff_le {d : Descriptor} {e : Nat} (he : e < 2 ^ d.E) : eEff e ≤ max 1 (2 ^ d.E - 1) := by
  by_cases h0 : e = 0
  · rw [h0, eEff_zero]
    exact le_max_left ..
  · rw [eEff_of_ne_zero h0]
    exact le_max_of_le_right (Nat.le_sub_one_of_lt he)

/-- Settles O8, by the equations of the two functions at 0 and elsewhere. -/
theorem hiddenBitAndEffectiveExponent : Obligations.HiddenBitAndEffectiveExponent :=
  ⟨hiddenBit_zero, eEff_zero, fun _ he => ⟨hiddenBit_of_ne_zero he, eEff_of_ne_zero he⟩,
    fun _ e he => ⟨one_le_eEff e, eEff_le he⟩⟩

/-- The subtractor's result is between its two ends, so the port holds it. -/
theorem expRaw_toInt {d : Descriptor} {e : Nat} (he : e < 2 ^ d.E) : (expRaw d e).toInt = eEff e - d.bias := by
  have hlo := one_le_eEff e
  have hhi := eEff_le he
  refine sext_toInt _ _ (signedWidth_le_expw ?_ ?_)
  · unfold minExp; omega
  · unfold maxExp; omega

/-- Settles O9, by `expRaw_toInt` and the two cases of `e_eff`. -/
theorem biasSubtractionNeverOverflows : Obligations.BiasSubtractionNeverOverflows := by
  intro d e he
  rw [expRaw_toInt he]
  split
  · next h0 => rw [h0, eEff_zero, Nat.cast_one]
  · next h0 => rw [eEff_of_ne_zero h0]

/-- A mantissa field below the hidden bit leaves the significand all its `M + 1` bits. -/
theorem sigRaw_toNat {d : Descriptor} (e : Nat) {m : Nat} (hm : m < 2 ^ d.M) :
    (sigRaw d e m).toNat = hiddenBit e * 2 ^ d.M + m := by
  have hhidden := Nat.mul_le_mul_right (2 ^ d.M) (hiddenBit_le_one e)
  have hpow : 2 ^ (d.M + 1) = 2 ^ d.M + 2 ^ d.M := by ring
  exact zext_toNat _ _ (by omega)

theorem classify_eq_zero_iff (d : Descriptor) (e m : Nat) : classify d e m = .zero ↔ e = 0 ∧ m = 0 := by
  rw [classify_eq]
  by_cases he : e = 0
  · by_cases hm : m = 0
    · simp [he, hm]
    · simp [he, hm]
  · split_ifs <;> simp [he]

/-- Settles O7, by `sigRaw_toNat` and the two values of the hidden bit. -/
theorem significandIsExact : Obligations.SignificandIsExact := by
  intro d e m hm
  have hpow : 2 ^ (d.M + 1) = 2 ^ d.M + 2 ^ d.M := by ring
  rw [sigRaw_toNat e hm, classify_eq_zero_iff]
  by_cases he : e = 0
  · subst he
    rw [hiddenBit_zero]
    refine ⟨rfl, by omega, by omega, by omega, by omega, fun hM => ?_⟩
    rw [hM] at hm
    omega
  · rw [hiddenBit_of_ne_zero he]
    refine ⟨rfl, by omega, by omega, by omega, by omega, fun hM => ?_⟩
    rw [hM] at hm ⊢
    omega

end Sys2Proof.Machine
end

section
/-!
PROOFS. The value of the outputs (41_bias_exponent.md R67, R68, 43_output_mux.md R84) and the order of the magnitudes
(R69).
-/

namespace Sys2Proof.Machine

/-- On a pattern the block is the four sub-blocks put together (43_output_mux.md R83). -/
theorem block_eq_composition {u : Instance} {p : Nat} (hp : p < 2 ^ u.desc.W) : block u p = composition u.desc p := by
  rw [block_eq_portImage_fiveArms u p hp, ← assemble_classify, Sign.bit_ofBit, composition]

/-- The magnitude of the four sub-blocks' Finite result, from its two fields (41_bias_exponent.md R69). -/
theorem magnitude_assemble_of_isFinite {d : Descriptor} {c : Cls} (s : Bit) {e m : Nat} (hc : isFinite c = true)
    (he : e < 2 ^ d.E) (hm : m < 2 ^ d.M) :
    magnitude (assemble d c s e m) = (hiddenBit e * 2 ^ d.M + m : Nat) * (2 : ℚ) ^ (eEff e - d.bias - d.M : Int) := by
  simp only [magnitude, assemble, muxPayload, if_pos hc, sigRaw_toNat e hm, expRaw_toInt he]

/-- An exponent field 0 hides a 0, and the source's formula has its significand `m` (R68). -/
theorem val_assemble_subnormal (d : Descriptor) (s : Bit) {m : Nat} (hm : m < 2 ^ d.M) :
    val (assemble d .subnormal s 0 m) = .number (signVal s * m * 2 ^ (1 - d.bias - d.M : Int)) := by
  have hval : val (assemble d .subnormal s 0 m) = .number (signVal s * magnitude (assemble d .subnormal s 0 m)) := rfl
  rw [hval, magnitude_assemble_of_isFinite s rfl (Nat.two_pow_pos _) hm, hiddenBit_zero, eEff_zero, zero_mul, zero_add,
    Nat.cast_one, mul_assoc]

/-- Any other exponent field hides a 1, and the source's formula has the significand `1 + m / 2^M` (R67). -/
theorem val_assemble_normal {d : Descriptor} (s : Bit) {e m : Nat} (h0 : e ≠ 0) (he : e < 2 ^ d.E)
    (hm : m < 2 ^ d.M) :
    val (assemble d .normal s e m) = .number (signVal s * (1 + (m : ℚ) / 2 ^ d.M) * 2 ^ ((e : Int) - d.bias)) := by
  have hval : val (assemble d .normal s e m) = .number (signVal s * magnitude (assemble d .normal s e m)) := rfl
  rw [hval, magnitude_assemble_of_isFinite s rfl he hm, hiddenBit_of_ne_zero h0, eEff_of_ne_zero h0,
    zpow_sub₀ two_ne_zero, zpow_natCast]
  push_cast
  field_simp

theorem eq_zero_of_classify_eq_subnormal {d : Descriptor} {e m : Nat} (h : classify d e m = .subnormal) : e = 0 := by
  rw [classify_eq] at h
  split_ifs at h with he
  exact he

theorem ne_zero_of_classify_eq_normal {d : Descriptor} {e m : Nat} (h : classify d e m = .normal) : e ≠ 0 := by
  rw [classify_eq] at h
  split_ifs at h with he
  exact he

/-- Settles O23, class by class: the value of the four sub-blocks put together for the class. -/
theorem valueIsTheSourcesFormula : Obligations.ValueIsTheSourcesFormula := by
  intro u p hp
  have hm := mantissaField_lt u.desc p
  rw [block_eq_composition hp, composition]
  refine ⟨fun hc => ?_, fun hc => ?_, fun hc => ?_, fun hc => ?_, fun hc => ?_⟩ <;> rw [hc]
  · rfl
  · rw [eq_zero_of_classify_eq_subnormal hc, val_assemble_subnormal u.desc _ hm]
  · rfl
  · rfl
  · rw [val_assemble_normal _ (ne_zero_of_classify_eq_normal hc) (exponentField_lt u.desc p) hm]

/-- A magnitude counted in units of `2^(-BIAS - M)`, a natural number (41_bias_exponent.md R69 (a)). -/
def scaledMagnitude (d : Descriptor) (e m : Nat) : Nat :=
  (hiddenBit e * 2 ^ d.M + m) * 2 ^ eEff e

/-- The tags 0 and 1 are those of Zero and of the two classes with a Finite result (43_output_mux.md R80). -/
theorem zero_or_isFinite_of_muxTag {c : Cls} (h : muxTag c = 0 ∨ muxTag c = 1) : c = .zero ∨ isFinite c = true := by
  cases c with
  | zero => exact .inl rfl
  | subnormal => exact .inr rfl
  | normal => exact .inr rfl
  | inf => exact absurd h (by decide)
  | nan => exact absurd h (by decide)

/-- The sub-blocks' Zero and Finite results, as their number of units. -/
theorem magnitude_assemble {d : Descriptor} (s : Bit) {e m : Nat} (he : e < 2 ^ d.E) (hm : m < 2 ^ d.M)
    (hc : classify d e m = .zero ∨ isFinite (classify d e m) = true) :
    magnitude (assemble d (classify d e m) s e m) = scaledMagnitude d e m * (2 : ℚ) ^ (-d.bias - d.M) := by
  obtain hc | hc := hc
  · obtain ⟨rfl, rfl⟩ := (classify_eq_zero_iff d e m).mp hc
    rw [hc]
    simp [magnitude, assemble, muxPayload, isFinite, scaledMagnitude]
  · have hexp : (eEff e - d.bias - d.M : Int) = eEff e + (-d.bias - d.M) := by ring
    rw [magnitude_assemble_of_isFinite s hc he hm, hexp, zpow_add₀ two_ne_zero, zpow_natCast, ← mul_assoc,
      scaledMagnitude]
    push_cast
    rfl

theorem magnitude_block {u : Instance} {p : Nat} (hp : p < 2 ^ u.desc.W)
    (htag : (block u p).tag = 0 ∨ (block u p).tag = 1) :
    magnitude (block u p) =
      scaledMagnitude u.desc (exponentField u.desc p) (mantissaField u.desc p) *
        (2 : ℚ) ^ (-u.desc.bias - u.desc.M) := by
  rw [block_eq_composition hp] at htag ⊢
  exact magnitude_assemble _ (exponentField_lt u.desc p) (mantissaField_lt u.desc p) (zero_or_isFinite_of_muxTag htag)

/-- Fields of exponent `e` stay below the first normal fields of exponent `e + 1`. -/
theorem scaledMagnitude_lt (d : Descriptor) (e : Nat) {m : Nat} (hm : m < 2 ^ d.M) :
    scaledMagnitude d e m < 2 ^ d.M * 2 ^ (e + 1) := by
  by_cases he : e = 0
  · simpa [he, scaledMagnitude] using hm
  · rw [scaledMagnitude, hiddenBit_of_ne_zero he, eEff_of_ne_zero he, pow_succ', ← mul_assoc]
    exact Nat.mul_lt_mul_of_pos_right (by omega) (Nat.two_pow_pos e)

theorem le_scaledMagnitude (d : Descriptor) {e : Nat} (m : Nat) (he : e ≠ 0) :
    2 ^ d.M * 2 ^ e ≤ scaledMagnitude d e m := by
  rw [scaledMagnitude, hiddenBit_of_ne_zero he, eEff_of_ne_zero he]
  exact Nat.mul_le_mul_right _ (by omega)

/-- Inside one exponent field the magnitude grows with the mantissa field; from one exponent field to a larger one it
passes the first magnitude of the exponent field after it. -/
theorem scaledMagnitude_lt_of_lex (d : Descriptor) {e m e' m' : Nat} (hm : m < 2 ^ d.M)
    (h : e < e' ∨ e = e' ∧ m < m') : scaledMagnitude d e m < scaledMagnitude d e' m' := by
  obtain he | ⟨rfl, hmm⟩ := h
  · calc scaledMagnitude d e m
      _ < 2 ^ d.M * 2 ^ (e + 1) := scaledMagnitude_lt d e hm
      _ ≤ 2 ^ d.M * 2 ^ e' := Nat.mul_le_mul_left _ (Nat.pow_le_pow_right two_pos he)
      _ ≤ scaledMagnitude d e' m' := le_scaledMagnitude d m' (by omega)
  · exact Nat.mul_lt_mul_of_pos_right (by omega) (Nat.two_pow_pos _)

/-- Patterns of one sign are ordered by the exponent field, then by the mantissa field. -/
theorem fields_lex_of_lt {d : Descriptor} {p q : Nat} (hpq : p < q)
    (hsign : p / 2 ^ (d.W - 1) = q / 2 ^ (d.W - 1)) :
    exponentField d p < exponentField d q ∨
      exponentField d p = exponentField d q ∧ mantissaField d p < mantissaField d q := by
  rw [d.W_sub_one, Nat.add_comm, pow_add, ← Nat.div_div_eq_div_mul, ← Nat.div_div_eq_div_mul] at hsign
  simp only [exponentField, mantissaField, slice_eq_div_mod, pow_zero, Nat.div_one]
  have hp := Nat.div_add_mod (p / 2 ^ d.M) (2 ^ d.E)
  have hq := Nat.div_add_mod (q / 2 ^ d.M) (2 ^ d.E)
  rw [hsign] at hp
  obtain hhigh | hhigh := (Nat.div_le_div_right hpq.le : p / 2 ^ d.M ≤ q / 2 ^ d.M).lt_or_eq
  · exact .inl (by omega)
  · have hp' := Nat.div_add_mod p (2 ^ d.M)
    have hq' := Nat.div_add_mod q (2 ^ d.M)
    rw [hhigh] at hp'
    exact .inr ⟨by rw [hhigh], by omega⟩

/-- Settles O24: the patterns' fields are in lexicographic order, and so are the magnitudes. -/
theorem finiteMagnitudesAreStrictlyIncreasing : Obligations.FiniteMagnitudesAreStrictlyIncreasing := by
  intro u p q hpq hq hsign htp htq
  rw [magnitude_block (hpq.trans hq) htp, magnitude_block hq htq]
  have hlt := scaledMagnitude_lt_of_lex u.desc (mantissaField_lt u.desc p) (fields_lex_of_lt hpq hsign)
  exact mul_lt_mul_of_pos_right (Nat.cast_lt.mpr hlt) (by positivity)

end Sys2Proof.Machine
end

section
/-!
PROOFS. The classifier (42_classify.md): the condition of each class, the classes that a descriptor reaches, the
degenerate widths, and the class counts of the three formats.
-/

namespace Sys2Proof

/-- With both fields 0 only the sign is left of a pattern. -/
theorem pack_zero_zero (d : Descriptor) (s : Sign) : pack d s 0 0 = s.bit.toNat * 2 ^ (d.W - 1) := by
  rw [pack, zero_mul, add_zero, add_zero]

theorem pack_plus_zero_zero (d : Descriptor) : pack d .plus 0 0 = 0 := by
  rw [pack_zero_zero]
  exact zero_mul _

theorem pack_minus_zero_zero (d : Descriptor) : pack d .minus 0 0 = 2 ^ (d.W - 1) := by
  rw [pack_zero_zero]
  exact one_mul _

namespace Machine

/-! ### The condition of each class -/

/-- The chain past its two arms for an exponent field 0. -/
theorem classify_of_ne_zero (d : Descriptor) {e : Nat} (m : Nat) (he : e ≠ 0) :
    classify d e m =
      if e = 2 ^ d.E - 1 ∧ d.hasInf = true ∧ m = 0 then .inf
      else if e = 2 ^ d.E - 1 ∧ m ∈ nanCodes d then .nan
      else .normal := by
  rw [classify_eq, if_neg he]

theorem classify_zero (d : Descriptor) (m : Nat) : classify d 0 m = if m = 0 then .zero else .subnormal := by
  rw [classify_eq, if_pos rfl]

theorem classify_eq_subnormal_iff (d : Descriptor) (e m : Nat) : classify d e m = .subnormal ↔ e = 0 ∧ m ≠ 0 := by
  by_cases he : e = 0
  · rw [he, classify_zero]
    split_ifs <;> simp [*]
  · rw [classify_of_ne_zero d m he]
    split_ifs <;> simp [he]

theorem classify_eq_inf_iff (d : Descriptor) (e m : Nat) :
    classify d e m = .inf ↔ e ≠ 0 ∧ e = 2 ^ d.E - 1 ∧ d.hasInf = true ∧ m = 0 := by
  by_cases he : e = 0
  · rw [he, classify_zero]
    split_ifs <;> simp
  · rw [classify_of_ne_zero d m he]
    split_ifs with hinf hnan
    · exact iff_of_true rfl ⟨he, hinf⟩
    · exact iff_of_false (by decide) fun h => hinf h.2
    · exact iff_of_false (by decide) fun h => hinf h.2

theorem classify_eq_nan_iff (d : Descriptor) (e m : Nat) :
    classify d e m = .nan ↔ e ≠ 0 ∧ e = 2 ^ d.E - 1 ∧ ¬(d.hasInf = true ∧ m = 0) ∧ m ∈ nanCodes d := by
  by_cases he : e = 0
  · rw [he, classify_zero]
    split_ifs <;> simp
  · rw [classify_of_ne_zero d m he]
    split_ifs with hinf hnan
    · exact iff_of_false (by decide) fun ⟨_, _, hno, _⟩ => hno hinf.2
    · exact iff_of_true rfl ⟨he, hnan.1, fun h => hinf ⟨hnan.1, h⟩, hnan.2⟩
    · exact iff_of_false (by decide) fun ⟨_, hmax, _, hcode⟩ => hnan ⟨hmax, hcode⟩

theorem classify_eq_normal_iff (d : Descriptor) (e m : Nat) :
    classify d e m = .normal ↔ e ≠ 0 ∧ ¬(e = 2 ^ d.E - 1 ∧ (d.hasInf = true ∧ m = 0 ∨ m ∈ nanCodes d)) := by
  by_cases he : e = 0
  · rw [he, classify_zero]
    split_ifs <;> simp
  · rw [classify_of_ne_zero d m he, and_or_left, not_or]
    split_ifs with hinf hnan
    · exact iff_of_false (by decide) fun ⟨_, hno, _⟩ => hno hinf
    · exact iff_of_false (by decide) fun ⟨_, _, hno⟩ => hno hnan
    · exact iff_of_true rfl ⟨he, hinf, hnan⟩

/-- Settles O10, class by class. -/
theorem eachClassHasItsCondition : Obligations.EachClassHasItsCondition := fun d e m =>
  ⟨classify_eq_zero_iff d e m, classify_eq_subnormal_iff d e m, classify_eq_inf_iff d e m, classify_eq_nan_iff d e m,
    classify_eq_normal_iff d e m⟩

/-- The chain at the max exponent. -/
theorem classify_of_max (d : Descriptor) {e : Nat} (m : Nat) (he : e ≠ 0) (hmax : e = 2 ^ d.E - 1) :
    classify d e m = if d.hasInf = true ∧ m = 0 then .inf else if m ∈ nanCodes d then .nan else .normal := by
  rw [classify_of_ne_zero d m he]
  simp only [← hmax, true_and]

/-- Settles O11: where the guard fails no infinity is encoded and no code is listed, so neither test can hold. -/
theorem guardOfStepFourAddsNothing : Obligations.GuardOfStepFourAddsNothing := by
  intro d e m
  by_cases he : e = 0
  · rw [if_pos he, he, classify_zero]
  · rw [if_neg he]
    by_cases hguard : e = 2 ^ d.E - 1 ∧ (d.hasInf = true ∨ nanCodes d ≠ [])
    · rw [if_pos hguard]
      exact classify_of_max d m he hguard.1
    · rw [if_neg hguard]
      refine (classify_eq_normal_iff d e m).mpr ⟨he, ?_⟩
      rintro ⟨hmax, ⟨hinf, -⟩ | hcode⟩
      · exact hguard ⟨hmax, .inl hinf⟩
      · exact hguard ⟨hmax, .inr (List.ne_nil_of_mem hcode)⟩

/-! ### Which patterns are in a class -/

/-- Settles O12: a pattern whose two fields are 0 is its sign bit. -/
theorem exactlyTwoPatternsAreZero : Obligations.ExactlyTwoPatternsAreZero := by
  intro d p hp
  rw [classify_eq_zero_iff, ← pack_minus_zero_zero d]
  constructor
  · rintro ⟨he, hm⟩
    have hpack := pack_fields hp
    rw [he, hm] at hpack
    cases hs : Sign.ofBit (signBit d p) with
    | plus => exact .inl (by rw [← hpack, hs, pack_plus_zero_zero])
    | minus => exact .inr (by rw [← hpack, hs])
  · have hfields : ∀ s, exponentField d (pack d s 0 0) = 0 ∧ mantissaField d (pack d s 0 0) = 0 := fun s =>
      ⟨exponentField_pack d s (Nat.two_pow_pos _) (Nat.two_pow_pos _), mantissaField_pack d s 0 (Nat.two_pow_pos _)⟩
    rintro (hp0 | rfl)
    · rw [hp0.trans (pack_plus_zero_zero d).symm]
      exact hfields .plus
    · exact hfields .minus

/-- Every pair of in-range fields is that of a pattern, so a class is reached by a pattern when it is by fields. -/
theorem exists_pattern_iff (d : Descriptor) (c : Cls) :
    (∃ p, p < 2 ^ d.W ∧ classify d (exponentField d p) (mantissaField d p) = c) ↔
      ∃ e m, e < 2 ^ d.E ∧ m < 2 ^ d.M ∧ classify d e m = c := by
  constructor
  · rintro ⟨p, -, hc⟩
    exact ⟨_, _, exponentField_lt d p, mantissaField_lt d p, hc⟩
  · rintro ⟨e, m, he, hm, hc⟩
    refine ⟨pack d .plus e m, pack_lt d _ he hm, ?_⟩
    rwa [exponentField_pack d _ he hm, mantissaField_pack d _ e hm]

/-- The max exponent is in range, and is another field than 0 where the field has a wire. -/
theorem maxField_lt (d : Descriptor) : 2 ^ d.E - 1 < 2 ^ d.E :=
  Nat.sub_one_lt_of_lt (Nat.two_pow_pos _)

theorem maxField_ne_zero {d : Descriptor} (hE : 1 ≤ d.E) : 2 ^ d.E - 1 ≠ 0 :=
  Nat.sub_ne_zero_of_lt (Nat.one_lt_two_pow (Nat.one_le_iff_ne_zero.mp hE))

/-- Settles O13: the fields of each class, by its condition. -/
theorem reachableClasses : Obligations.ReachableClasses := by
  intro d
  simp only [exists_pattern_iff]
  simp only [classify_eq_zero_iff, classify_eq_subnormal_iff, classify_eq_inf_iff, classify_eq_nan_iff]
  refine ⟨⟨0, 0, Nat.two_pow_pos _, Nat.two_pow_pos _, rfl, rfl⟩, ⟨?_, fun hM => ?_⟩, ⟨?_, ?_⟩, ?_, ?_⟩
  · rintro ⟨e, m, -, hm, -, hm0⟩
    by_contra hM
    have hM0 : d.M = 0 := by omega
    rw [hM0] at hm
    omega
  · exact ⟨0, 1, Nat.two_pow_pos _, Nat.one_lt_two_pow (Nat.one_le_iff_ne_zero.mp hM), rfl, one_ne_zero⟩
  · rintro ⟨e, m, he, -, he0, -, hinf, -⟩
    exact ⟨hinf, one_le_E_of_ne_zero he he0⟩
  · rintro ⟨hinf, hE⟩
    exact ⟨_, 0, maxField_lt d, Nat.two_pow_pos _, maxField_ne_zero hE, rfl, hinf, rfl⟩
  · rintro ⟨e, m, he, -, he0, -, hno, hcode⟩
    exact ⟨one_le_E_of_ne_zero he he0, m, hcode, hno⟩
  · rintro ⟨hE, c, hcode, hno⟩
    have hc : c < 2 ^ d.M := BitVec.lt_of_getLsbD ((mem_nanCodes d c).mp hcode)
    exact ⟨_, c, maxField_lt d, hc, maxField_ne_zero hE, rfl, hno, hcode⟩

/-- Settles O14: the patterns of each format, counted. -/
theorem classCountsOfTheConfiguredFormats : Obligations.ClassCountsOfTheConfiguredFormats := by
  refine ⟨?_, ?_, ?_⟩
  · decide +kernel
  · decide +kernel
  · decide +kernel

/-! ### The degenerate widths -/

theorem exponentField_of_no_bits {d : Descriptor} (hE : d.E = 0) (p : Nat) : exponentField d p = 0 := by
  rw [exponentField, hE, slice_zero_width]

theorem mantissaField_of_no_bits {d : Descriptor} (hM : d.M = 0) (p : Nat) : mantissaField d p = 0 := by
  rw [mantissaField, hM, slice_zero_width]

/-- A lone exponent bit is the max exponent where it is 1. -/
theorem eq_maxField_of_one_bit {d : Descriptor} (hE : d.E = 1) {e : Nat} (he : e < 2 ^ d.E) (h0 : e ≠ 0) :
    e = 2 ^ d.E - 1 := by
  rw [hE] at he ⊢
  omega

/-- A NORMAL result without mantissa bits is the hidden bit alone. -/
theorem block_sig_of_normal_of_no_mantissa {u : Instance} {p : Nat} (hp : p < 2 ^ u.desc.W) (hM : u.desc.M = 0)
    (hc : classify u.desc (exponentField u.desc p) (mantissaField u.desc p) = .normal) :
    (block u p).sig.toNat = 1 := by
  have hsig : (block u p).sig = sigRaw u.desc (exponentField u.desc p) (mantissaField u.desc p) := by
    rw [block_eq_composition hp, composition, hc]
    rfl
  rw [hsig, sigRaw_toNat _ (mantissaField_lt ..), hiddenBit_of_ne_zero (ne_zero_of_classify_eq_normal hc),
    mantissaField_of_no_bits hM, hM, pow_zero, one_mul, add_zero]

/-- On every instance the pattern of a signed zero drives its image (42_classify.md R71). -/
theorem block_pack_zero_zero (u : Instance) (s : Sign) : block u (pack u.desc s 0 0) = portImage u.desc (.zero s) := by
  have he : 0 < 2 ^ u.desc.E := Nat.two_pow_pos _
  have hm : 0 < 2 ^ u.desc.M := Nat.two_pow_pos _
  rw [block_eq_portImage_fiveArms u _ (pack_lt u.desc s he hm), signBit_pack _ _ he hm, exponentField_pack _ _ he hm,
    mantissaField_pack _ _ _ hm, Sign.ofBit_bit]
  rfl

/-- Settles O15, width by width. -/
theorem degenerateWidths : Obligations.DegenerateWidths := by
  intro u p hp
  refine ⟨fun hE => ?_, fun hE he => ?_, fun hM => ⟨fun hc => ?_, fun hE hmax => ?_, ?_⟩, fun hW => ⟨?_, ?_⟩⟩
  · rw [exponentField_of_no_bits hE, classify_zero]
  · exact classify_of_max u.desc _ he (eq_maxField_of_one_bit hE (exponentField_lt u.desc p) he)
  · exact ((classify_eq_subnormal_iff ..).mp hc).2 (mantissaField_of_no_bits hM p)
  · rw [classify_of_max u.desc _ (hmax ▸ maxField_ne_zero hE) hmax, mantissaField_of_no_bits hM]
    simp only [and_true]
  · exact block_sig_of_normal_of_no_mantissa hp hM
  · rintro rfl
    rw [← block_pack_zero_zero u .plus, pack_plus_zero_zero]
  · rintro rfl
    rw [← block_pack_zero_zero u .minus, pack_minus_zero_zero, hW, Nat.sub_self, pow_zero]

end Machine

end Sys2Proof
end

section
/-!
PROOFS. The class rows of the three formats (44_formats.md R91 to R93): each completes with the Decoded Value of its
class.
-/

namespace Sys2Proof.Machine

/-! ### What the sub-blocks give for the two Finite classes -/

theorem assemble_subnormal (d : Descriptor) (sg : Sign) (m : Nat) :
    assemble d .subnormal sg.bit 0 m = portImage d (.finite sg m (1 - d.bias)) := by
  rw [assemble_of_isFinite d sg 0 m rfl, hiddenBit_zero, eEff_zero, zero_mul, zero_add, Nat.cast_one]

theorem assemble_normal (d : Descriptor) (sg : Sign) {e : Nat} (m : Nat) (he : e ≠ 0) :
    assemble d .normal sg.bit e m = portImage d (.finite sg (2 ^ d.M + m) (e - d.bias)) := by
  rw [assemble_of_isFinite d sg e m rfl, hiddenBit_of_ne_zero he, eEff_of_ne_zero he, one_mul]

/-! ### A row of each class completes -/

section
variable (mn : String) {f : FormatLabel} (sg : Sign) {s : State} (hd : s.inst.desc = descriptorOf f)
include hd

theorem deliver_subnormal {m : Nat} (hm : m ≠ 0) :
    deliver mn f .subnormal sg 0 m s =
      .next (s.evaluate (BitVec.ofNat _ (pack (descriptorOf f) sg 0 m))
        (portImage s.inst.desc (.finite sg m (1 - (descriptorOf f).bias)))) :=
  deliver_of_image mn f .subnormal sg 0 m s _ hd ((classify_eq_subnormal_iff ..).mpr ⟨rfl, hm⟩)
    (assemble_subnormal ..)

theorem deliver_nan {e m : Nat} (hc : classify (descriptorOf f) e m = .nan) :
    deliver mn f .nan sg e m s =
      .next (s.evaluate (BitVec.ofNat _ (pack (descriptorOf f) sg e m)) (portImage s.inst.desc .nan)) :=
  deliver_of_image mn f .nan sg e m s .nan hd hc rfl

theorem deliver_normal {e m : Nat} (hc : classify (descriptorOf f) e m = .normal) :
    deliver mn f .normal sg e m s =
      .next (s.evaluate (BitVec.ofNat _ (pack (descriptorOf f) sg e m))
        (portImage s.inst.desc (.finite sg (2 ^ (descriptorOf f).M + m) (e - (descriptorOf f).bias)))) :=
  deliver_of_image mn f .normal sg e m s _ hd hc (assemble_normal _ sg m (ne_zero_of_classify_eq_normal hc))

end

/-! ### The operands of the rows, as fields -/

theorem nanCodes_e5m2 : nanCodes e5m2 = [1, 2, 3] := by decide

theorem nanCodes_e4m3 : nanCodes e4m3 = [7] := by decide

theorem nanCodes_e2m1 : nanCodes e2m1 = [] := by decide

/-- Every nonzero mantissa field is a NaN code of E5M2 (44_formats.md R91). -/
theorem classify_e5m2_nan {m : BitVec 2} (hm : m ≠ 0) : classify e5m2 31 m.toNat = .nan := by
  have hm0 : m.toNat ≠ 0 := BitVec.toNat_ne.mp hm
  have hlt := m.isLt
  rw [classify_eq_nan_iff, nanCodes_e5m2]
  refine ⟨by decide, rfl, fun h => hm0 h.2, ?_⟩
  simp only [List.mem_cons, List.not_mem_nil, or_false]
  omega

/-- Below the max exponent no code is reserved. -/
theorem classify_e5m2_normal {e : BitVec 5} (m : BitVec 2) (h0 : e ≠ 0) (h31 : e ≠ 31) :
    classify e5m2 e.toNat m.toNat = .normal :=
  (classify_eq_normal_iff ..).mpr ⟨BitVec.toNat_ne.mp h0, fun h => BitVec.toNat_ne.mp h31 h.1⟩

/-- E4M3 reserves one code of the max exponent (44_formats.md R92). -/
theorem classify_e4m3_normal {e : BitVec 4} {m : BitVec 3} (h0 : e ≠ 0) (h : ¬(e = 15 ∧ m = 7)) :
    classify e4m3 e.toNat m.toNat = .normal := by
  rw [classify_eq_normal_iff, nanCodes_e4m3]
  refine ⟨BitVec.toNat_ne.mp h0, ?_⟩
  rintro ⟨hmax, hinf | hcode⟩
  · exact absurd hinf.1 (by decide)
  · exact h ⟨BitVec.eq_of_toNat_eq hmax, BitVec.eq_of_toNat_eq (List.mem_singleton.mp hcode)⟩

/-- E2M1 reserves no code (44_formats.md R93). -/
theorem classify_e2m1_normal {e : BitVec 2} (m : BitVec 1) (h0 : e ≠ 0) :
    classify e2m1 e.toNat m.toNat = .normal := by
  rw [classify_eq_normal_iff, nanCodes_e2m1]
  refine ⟨BitVec.toNat_ne.mp h0, ?_⟩
  rintro ⟨-, hinf | hcode⟩
  · exact absurd hinf.1 (by decide)
  · exact List.not_mem_nil hcode

/-! ### The statements -/

/-- Settles O26, row by row. -/
theorem zeroRowsGiveTheSignedZero : Obligations.ZeroRowsGiveTheSignedZero := fun s sg =>
  ⟨fun hd => deliver_of_image _ .e5m2 .zero sg 0 0 s (.zero sg) hd rfl rfl,
    fun hd => deliver_of_image _ .e4m3 .zero sg 0 0 s (.zero sg) hd rfl rfl,
    fun hd => deliver_of_image _ .e2m1 .zero sg 0 0 s (.zero sg) hd rfl rfl⟩

/-- Settles O27, row by row. -/
theorem subnormalRowsGiveTheirFiniteValue : Obligations.SubnormalRowsGiveTheirFiniteValue := fun _ sg =>
  ⟨fun _ hm hd => deliver_subnormal (f := .e5m2) _ sg hd (BitVec.toNat_ne.mp hm),
    fun _ hm hd => deliver_subnormal (f := .e4m3) _ sg hd (BitVec.toNat_ne.mp hm),
    fun hd => deliver_subnormal (f := .e2m1) _ sg hd one_ne_zero⟩

/-- Settles O28, row by row. -/
theorem specialRowsGiveInfinityAndNan : Obligations.SpecialRowsGiveInfinityAndNan := fun s sg =>
  ⟨fun hd => deliver_of_image _ .e5m2 .inf sg 31 0 s (.infinity sg) hd (by decide) rfl,
    fun _ hm hd => deliver_nan (f := .e5m2) _ sg hd (classify_e5m2_nan hm),
    fun hd => deliver_nan (f := .e4m3) _ sg hd (by decide)⟩

/-- Settles O29, row by row. -/
theorem normalRowsGiveTheirFiniteValue : Obligations.NormalRowsGiveTheirFiniteValue := fun _ sg =>
  ⟨fun _ m h0 h31 hd => deliver_normal (f := .e5m2) _ sg hd (classify_e5m2_normal m h0 h31),
    fun _ _ h0 h hd => deliver_normal (f := .e4m3) _ sg hd (classify_e4m3_normal h0 h),
    fun _ m h0 hd => deliver_normal (f := .e2m1) _ sg hd (classify_e2m1_normal m h0)⟩

end Sys2Proof.Machine
end

section
/-!
PROOFS. The mux and the whole block (43_output_mux.md): DECODE follows the five arms of R83 and is the composition of the
sub-blocks; the ports of each class (R80 to R82), the sign symmetry (R86), and the pattern read back from the outputs
(R87).
-/

namespace Sys2Proof.Machine

/-- Settles O19, by `block_eq_composition`. -/
theorem blockIsTheCompositionOfTheSubBlocks : Obligations.BlockIsTheCompositionOfTheSubBlocks :=
  fun _ _ hp => block_eq_composition hp

/-- Settles O20: to present the value that is on the port already drives its outputs and changes nothing else. -/
theorem stepIsTheWholeBlock : Obligations.StepIsTheWholeBlock := step_eq_present

/-- Settles O32: the decoded operation is the one the step selects. -/
theorem stepRunsTheDecodedOperation : Obligations.StepRunsTheDecodedOperation := by
  constructor
  · intro s i h
    obtain ⟨-, rfl⟩ := (decodeInteger_eq_ok_iff ..).mp h
    rfl
  · intro s nbits w i h
    obtain ⟨-, rfl⟩ := (decodeTableWord_eq_some_iff ..).mp h
    rfl

/-! ### DECODE -/

/-- The sign of a pattern by division. -/
theorem ofBit_signBit {d : Descriptor} {p : Nat} (hp : p < 2 ^ d.W) :
    Sign.ofBit (signBit d p) = if p / 2 ^ (d.W - 1) = 1 then .minus else .plus := by
  have hdiv : (signBit d p).toNat = p / 2 ^ (d.W - 1) := by
    rw [signBit_toNat_of_lt hp, Nat.div_div_eq_div_mul, ← pow_add, d.W_sub_one, Nat.add_comm]
  rw [Sign.ofBit, ← hdiv]
  exact if_congr BitVec.toNat_inj.symm rfl rfl

/-- DECODE of a value the port carries shows the block's outputs for that value. -/
theorem exec_decode_of_lt {s : State} {b : Nat} (hb : b < 2 ^ s.inst.busw) :
    exec (.decode b) s = .next (s.evaluate (BitVec.ofNat _ b) (block s.inst b)) := by
  have hexec : exec (.decode b) s = .next (s.present (BitVec.ofNat _ b)) := execDecode_of_lt b s hb
  rw [hexec, State.present, zext_toNat _ _ hb]

/-- Settles O17: the block drives the image of `fiveArms`, whose fields are read by division and remainder. -/
theorem decodeOfAPatternFollowsTheFiveArms : Obligations.DecodeOfAPatternFollowsTheFiveArms := by
  intro s b hb
  have hport : b < 2 ^ s.inst.busw := hb.trans_le (Nat.pow_le_pow_right two_pos s.inst.fits)
  rw [exec_decode_of_lt hport, block_eq_portImage_fiveArms s.inst b hb, ofBit_signBit hb, exponentField, mantissaField,
    slice_eq_div_mod, slice_eq_div_mod, pow_zero, Nat.div_one]
  rfl

/-- Settles O18: outside the format the block raises the range violation; outside the port DECODE is refused. -/
theorem decodeOutOfRangeRaisesErr : Obligations.DecodeOutOfRangeRaisesErr := by
  intro s b hb
  constructor
  · intro hport
    refine ⟨raiseRangeViolation s.inst b, ?_, rfl, rfl, rfl, rfl, rfl⟩
    rw [exec_decode_of_lt hport, block_of_outOfRange s.inst b hb]
  · intro hport
    exact if_neg (Nat.not_lt.mpr hport)

/-! ### The ports of each class -/

theorem isFinite_iff (c : Cls) : isFinite c = true ↔ c = .subnormal ∨ c = .normal := by
  simp [isFinite]

theorem muxPayload_eq_ite {n : Nat} (c : Cls) (raw : BitVec n) :
    muxPayload c raw = if c = .subnormal ∨ c = .normal then raw else 0 :=
  if_congr (isFinite_iff c) rfl rfl

theorem muxTag_eq_one_iff (c : Cls) : muxTag c = 1 ↔ c = .subnormal ∨ c = .normal := by
  cases c <;> decide

theorem muxTag_eq_three_iff (c : Cls) : muxTag c = 3 ↔ c = .nan := by
  cases c <;> decide

/-- The significand of a Finite class is not 0, and lacks the hidden bit exactly for SUBNORMAL (43_output_mux.md R82). -/
theorem sigRaw_of_finite_class {d : Descriptor} {e m : Nat} (hm : m < 2 ^ d.M)
    (hc : classify d e m = .subnormal ∨ classify d e m = .normal) :
    1 ≤ (sigRaw d e m).toNat ∧ ((sigRaw d e m).toNat < 2 ^ d.M ↔ classify d e m = .subnormal) := by
  have hpos := Nat.two_pow_pos d.M
  obtain ⟨-, -, -, hsub, hnormal, -⟩ := significandIsExact d e m hm
  obtain hc | hc := hc
  · obtain ⟨he, hm0⟩ := (classify_eq_subnormal_iff ..).mp hc
    obtain ⟨hlo, hhi⟩ := hsub he hm0
    exact ⟨hlo, iff_of_true (by omega) hc⟩
  · obtain ⟨hlo, -⟩ := hnormal (ne_zero_of_classify_eq_normal hc)
    exact ⟨by omega, iff_of_false (by omega) (by rw [hc]; decide)⟩

/-- Settles O21, port by port of the composed sub-blocks. -/
theorem blockDrivesThePortsOfTheMux : Obligations.BlockDrivesThePortsOfTheMux := by
  intro u p hp
  rw [block_eq_composition hp]
  refine ⟨rfl, rfl, muxPayload_eq_ite .., muxPayload_eq_ite .., fun htag => ?_⟩
  have hc := (muxTag_eq_one_iff _).mp htag
  have hsig : (composition u.desc p).sig = sigRaw u.desc (exponentField u.desc p) (mantissaField u.desc p) :=
    (muxPayload_eq_ite ..).trans (if_pos hc)
  rw [hsig]
  exact sigRaw_of_finite_class (mantissaField_lt u.desc p) hc

/-! ### Sign symmetry -/

/-- A flip of the sign bit reaches the mux as the other sign bit, with the same class and the same fields. -/
theorem composition_xor_sign (d : Descriptor) (p : Nat) :
    composition d (p ^^^ 2 ^ (d.W - 1)) =
      assemble d (classify d (exponentField d p) (mantissaField d p)) (~~~(signBit d p)) (exponentField d p)
        (mantissaField d p) := by
  rw [composition, signBit_xor_sign, exponentField_xor_sign, mantissaField_xor_sign]

theorem xor_sign_lt {d : Descriptor} {p : Nat} (hp : p < 2 ^ d.W) : p ^^^ 2 ^ (d.W - 1) < 2 ^ d.W :=
  Nat.xor_lt_two_pow hp (Nat.pow_lt_pow_right one_lt_two (Nat.sub_one_lt_of_lt d.one_le_W))

/-- Settles O22: of the mux's ports only the sign port reads the sign bit, and not for NaN. -/
theorem signBitChangesTheSignOnly : Obligations.SignBitChangesTheSignOnly := by
  intro u p hp
  rw [block_eq_composition hp, block_eq_composition (xor_sign_lt hp), composition_xor_sign]
  refine ⟨rfl, rfl, rfl, fun htag => ?_, fun htag => ?_⟩
  · have hc := mt (muxTag_eq_three_iff _).mpr htag
    simp only [composition, assemble, muxSign, if_neg hc]
  · have hc := (muxTag_eq_three_iff _).mp htag
    exact ⟨if_pos hc, if_pos hc⟩

/-! ### The pattern read back from the outputs -/

/-- The pattern of a Decoded Value: a significand without the hidden bit is a SUBNORMAL's mantissa field, any other
a NORMAL's. A NaN does not tell its pattern (43_output_mux.md R87), and has 0 here. -/
def patternOf (d : Descriptor) : DecodedValue → Nat
  | .zero s => pack d s 0 0
  | .finite s sig exp =>
    if sig < 2 ^ d.M then pack d s 0 sig else pack d s (exp + d.bias).toNat (sig - 2 ^ d.M)
  | .infinity s => pack d s (2 ^ d.E - 1) 0
  | .nan => 0

theorem patternOf_subnormal {d : Descriptor} (s : Sign) {m : Nat} (hm : m < 2 ^ d.M) (exp : Int) :
    patternOf d (.finite s m exp) = pack d s 0 m :=
  if_pos hm

theorem patternOf_normal (d : Descriptor) (s : Sign) (e m : Nat) :
    patternOf d (.finite s (2 ^ d.M + m) (e - d.bias)) = pack d s e m := by
  rw [patternOf, if_neg (Nat.not_lt.mpr (Nat.le_add_right ..)), Int.sub_add_cancel, Int.toNat_natCast,
    Nat.add_sub_cancel_left]

/-- Every arm but NaN's keeps the whole pattern. -/
theorem fiveArms_eq_nan_or_patternOf_fiveArms {d : Descriptor} (sg : Sign) (e : Nat) {m : Nat} (hm : m < 2 ^ d.M) :
    fiveArms d sg e m = .nan ∨ patternOf d (fiveArms d sg e m) = pack d sg e m := by
  unfold fiveArms
  split_ifs with he hm0 hinf hnan
  · exact .inr (by rw [he, hm0, patternOf])
  · exact .inr (by rw [he, patternOf_subnormal sg hm])
  · obtain ⟨hmax, -, hm0⟩ := hinf
    exact .inr (by rw [patternOf, ← hmax, hm0])
  · exact .inl rfl
  · exact .inr (patternOf_normal ..)

/-- The outputs of a pattern show NaN, or the pattern can be read back from them. -/
theorem block_tag_eq_three_or_patternOf_readPorts {u : Instance} {p : Nat} (hp : p < 2 ^ u.desc.W) :
    (block u p).tag = 3 ∨ patternOf u.desc (readPorts (block u p)) = p := by
  have hm := mantissaField_lt u.desc p
  rw [block_eq_portImage_fiveArms u p hp, readPorts_portImage (allows_fiveArms _ _ (exponentField_lt u.desc p) hm)]
  obtain hnan | hpattern := fiveArms_eq_nan_or_patternOf_fiveArms
    (Sign.ofBit (signBit u.desc p)) (exponentField u.desc p) hm
  · exact .inl (by rw [hnan]; rfl)
  · exact .inr (hpattern.trans (pack_fields hp))

/-- Settles O25: both patterns are read back from the same outputs, unless these show NaN. -/
theorem outputsDetermineThePatternUnlessNan : Obligations.OutputsDetermineThePatternUnlessNan := by
  intro u p q hp hq heq
  have hq' := block_tag_eq_three_or_patternOf_readPorts hq
  rw [← heq] at hq' ⊢
  obtain hnan | hp' := block_tag_eq_three_or_patternOf_readPorts hp
  · exact .inr ⟨hnan, hnan⟩
  · obtain hnan | hq' := hq'
    · exact .inr ⟨hnan, hnan⟩
    · exact .inl (hp'.symm.trans hq')

end Sys2Proof.Machine
end

section
/-!
PROOFS. The three configured formats (44_formats.md R91 to R96): which patterns are Infinity and NaN, the ends of the
range of magnitudes, and the sixteen values of E2M1.
-/

namespace Sys2Proof

/-- Cutting off the wires above a slice leaves the slice alone. -/
theorem slice_mod_two_pow_of_le {lo len k : Nat} (hk : lo + len ≤ k) (p : Nat) :
    slice (p % 2 ^ k) lo len = slice p lo len := by
  refine Nat.eq_of_testBit_eq fun i => ?_
  rw [testBit_slice, testBit_slice, Nat.testBit_mod_two_pow]
  by_cases hi : i < len
  · rw [decide_eq_true (show lo + i < k by omega), Bool.true_and]
  · rw [decide_eq_false hi, Bool.false_and, Bool.false_and]

namespace Machine

/-! ### The fields and the tag of a pattern -/

theorem exponentField_eq_div_mod (d : Descriptor) (p : Nat) : exponentField d p = p / 2 ^ d.M % 2 ^ d.E :=
  slice_eq_div_mod p d.M d.E

theorem mantissaField_eq_mod (d : Descriptor) (p : Nat) : mantissaField d p = p % 2 ^ d.M := by
  rw [mantissaField, slice_eq_div_mod, pow_zero, Nat.div_one]

theorem muxTag_eq_two_iff (c : Cls) : muxTag c = 2 ↔ c = .inf := by
  cases c <;> decide

/-! ### A pattern without its sign bit -/

theorem exponentField_mod_sign (d : Descriptor) (p : Nat) :
    exponentField d (p % 2 ^ (d.W - 1)) = exponentField d p :=
  slice_mod_two_pow_of_le (by rw [d.W_sub_one, Nat.add_comm]) p

theorem mantissaField_mod_sign (d : Descriptor) (p : Nat) :
    mantissaField d (p % 2 ^ (d.W - 1)) = mantissaField d p :=
  slice_mod_two_pow_of_le (by rw [d.W_sub_one]; omega) p

theorem mod_sign_lt (d : Descriptor) (p : Nat) : p % 2 ^ (d.W - 1) < 2 ^ (d.W - 1) :=
  Nat.mod_lt p (Nat.two_pow_pos _)

theorem lt_two_pow_W_of_lt_sign {d : Descriptor} {p : Nat} (hp : p < 2 ^ (d.W - 1)) : p < 2 ^ d.W :=
  hp.trans_le (Nat.pow_le_pow_right two_pos (Nat.sub_le ..))

/-- The two patterns that are the same without their sign bits. -/
theorem mod_sign_eq_iff {d : Descriptor} {p t : Nat} (hp : p < 2 ^ d.W) (ht : t < 2 ^ (d.W - 1)) :
    p % 2 ^ (d.W - 1) = t ↔ p ∈ [t, t + 2 ^ (d.W - 1)] := by
  have hpow : 2 ^ d.W = 2 * 2 ^ (d.W - 1) := (mul_pow_sub_one (Nat.one_le_iff_ne_zero.mp d.one_le_W) 2).symm
  rw [List.mem_cons, List.mem_singleton]
  obtain hlow | hhigh := lt_or_ge p (2 ^ (d.W - 1))
  · rw [Nat.mod_eq_of_lt hlow]
    omega
  · rw [Nat.mod_eq_sub_mod hhigh, Nat.mod_eq_of_lt (by omega)]
    omega

section
variable {u : Instance} {p : Nat} (hp : p < 2 ^ u.desc.W)
include hp

theorem block_err : (block u p).err = 0 := by
  rw [block_eq_composition hp, composition_err]

theorem block_tag : (block u p).tag = muxTag (classify u.desc (exponentField u.desc p) (mantissaField u.desc p)) := by
  rw [block_eq_composition hp, composition, assemble]

/-- The patterns of Infinity, by their fields. -/
theorem block_tag_eq_two_iff :
    (block u p).tag = 2 ↔
      exponentField u.desc p ≠ 0 ∧ exponentField u.desc p = 2 ^ u.desc.E - 1 ∧
        u.desc.hasInf = true ∧ mantissaField u.desc p = 0 := by
  rw [block_tag hp, muxTag_eq_two_iff, classify_eq_inf_iff]

/-- The patterns of NaN, by their fields. -/
theorem block_tag_eq_three_iff :
    (block u p).tag = 3 ↔
      exponentField u.desc p ≠ 0 ∧ exponentField u.desc p = 2 ^ u.desc.E - 1 ∧
        ¬(u.desc.hasInf = true ∧ mantissaField u.desc p = 0) ∧ mantissaField u.desc p ∈ nanCodes u.desc := by
  rw [block_tag hp, muxTag_eq_three_iff, classify_eq_nan_iff]

theorem block_tag_ne_two (hinf : u.desc.hasInf = false) : (block u p).tag ≠ 2 := by
  rw [ne_eq, block_tag_eq_two_iff hp, hinf]
  exact fun ⟨_, _, h, _⟩ => Bool.false_ne_true h

theorem block_tag_ne_three (hcodes : nanCodes u.desc = []) : (block u p).tag ≠ 3 := by
  rw [ne_eq, block_tag_eq_three_iff hp, hcodes]
  exact fun ⟨_, _, _, h⟩ => List.not_mem_nil h

theorem block_tag_mod_sign : (block u (p % 2 ^ (u.desc.W - 1))).tag = (block u p).tag := by
  rw [block_tag hp, block_tag (lt_two_pow_W_of_lt_sign (mod_sign_lt u.desc p)), exponentField_mod_sign,
    mantissaField_mod_sign]

/-- The magnitude does not read the sign bit. -/
theorem magnitude_block_mod_sign : magnitude (block u (p % 2 ^ (u.desc.W - 1))) = magnitude (block u p) := by
  rw [block_eq_composition hp, block_eq_composition (lt_two_pow_W_of_lt_sign (mod_sign_lt u.desc p))]
  simp only [composition, magnitude, assemble, exponentField_mod_sign, mantissaField_mod_sign]

/-! ### Magnitudes and patterns are in one order -/

/-- The payload of every result that is not Finite is 0 (43_output_mux.md R82). -/
theorem magnitude_block_of_tag_ne_one (htag : (block u p).tag ≠ 1) : magnitude (block u p) = 0 := by
  obtain ⟨-, -, hsig, -⟩ := blockDrivesThePortsOfTheMux u p hp
  rw [block_tag hp, ne_eq, muxTag_eq_one_iff] at htag
  rw [magnitude, hsig.trans (if_neg htag)]
  simp

theorem magnitude_block_pos (htag : (block u p).tag = 1) : 0 < magnitude (block u p) := by
  obtain ⟨-, -, -, -, hfinite⟩ := blockDrivesThePortsOfTheMux u p hp
  obtain ⟨hsig, -⟩ := hfinite htag
  exact mul_pos (Nat.cast_pos.mpr hsig) (zpow_pos two_pos _)

end

/-- R69 (b) for the patterns with sign bit 0. -/
theorem strictMonoOn_magnitude_block (u : Instance) :
    StrictMonoOn (fun p => magnitude (block u p)) {p | p < 2 ^ (u.desc.W - 1) ∧ (block u p).tag = 1} := by
  rintro p ⟨hp, hptag⟩ q ⟨hq, hqtag⟩ hpq
  refine finiteMagnitudesAreStrictlyIncreasing u p q hpq (lt_two_pow_W_of_lt_sign hq) ?_ (.inr hptag) (.inr hqtag)
  rw [Nat.div_eq_of_lt hp, Nat.div_eq_of_lt hq]

section
variable {u : Instance} {p t : Nat} (hp : p < 2 ^ u.desc.W) (ht : t < 2 ^ (u.desc.W - 1)) (httag : (block u t).tag = 1)
include hp ht httag

/-- Without the sign bits, Finite magnitudes compare as their patterns do. -/
theorem magnitude_block_compare (hptag : (block u p).tag = 1) :
    (magnitude (block u p) ≤ magnitude (block u t) ↔ p % 2 ^ (u.desc.W - 1) ≤ t) ∧
      (magnitude (block u t) ≤ magnitude (block u p) ↔ t ≤ p % 2 ^ (u.desc.W - 1)) ∧
      (magnitude (block u p) = magnitude (block u t) ↔ p ∈ [t, t + 2 ^ (u.desc.W - 1)]) := by
  have hmono := strictMonoOn_magnitude_block u
  have htmem := And.intro ht httag
  have hpmem := And.intro (mod_sign_lt u.desc p) ((block_tag_mod_sign hp).trans hptag)
  rw [← magnitude_block_mod_sign hp, ← mod_sign_eq_iff hp ht]
  exact ⟨hmono.le_iff_le hpmem htmem, hmono.le_iff_le htmem hpmem, hmono.eq_iff_eq hpmem htmem⟩

/-- The magnitude of the last Finite pattern is the largest of all: all but Finite results have 0. -/
theorem magnitude_block_le_of_last (hlast : (block u p).tag = 1 → p % 2 ^ (u.desc.W - 1) ≤ t) :
    magnitude (block u p) ≤ magnitude (block u t) ∧
      (magnitude (block u p) = magnitude (block u t) ↔ p ∈ [t, t + 2 ^ (u.desc.W - 1)]) := by
  by_cases hptag : (block u p).tag = 1
  · obtain ⟨hle, -, heq⟩ := magnitude_block_compare hp ht httag hptag
    exact ⟨hle.mpr (hlast hptag), heq⟩
  · have hpos := magnitude_block_pos (lt_two_pow_W_of_lt_sign ht) httag
    rw [magnitude_block_of_tag_ne_one hp hptag, ← mod_sign_eq_iff hp ht]
    refine ⟨hpos.le, iff_of_false hpos.ne fun hpt => hptag ?_⟩
    rw [← block_tag_mod_sign hp, hpt, httag]

end

/-- Tag and magnitude of a Finite pattern of a given descriptor, from its number of units. -/
theorem block_of_finite_fields {u : Instance} {d : Descriptor} (hd : u.desc = d) {p n : Nat} (hp : p < 2 ^ d.W)
    (hc : muxTag (classify d (exponentField d p) (mantissaField d p)) = 1)
    (hn : scaledMagnitude d (exponentField d p) (mantissaField d p) = n) :
    (block u p).tag = 1 ∧ magnitude (block u p) = n * (2 : ℚ) ^ (-d.bias - d.M) := by
  subst hd hn
  have htag := (block_tag hp).trans hc
  exact ⟨htag, magnitude_block hp (.inr htag)⟩

/-! ### E5M2 -/

section
variable {u : Instance} (hd : u.desc = e5m2) {p : Nat}
include hd

/-- Infinity has the max exponent and the mantissa field 0. -/
theorem block_tag_eq_two_iff_of_e5m2 (hp : p < 2 ^ u.desc.W) : (block u p).tag = 2 ↔ p ∈ [0x7C, 0xFC] := by
  rw [block_tag_eq_two_iff hp, hd, exponentField_eq_div_mod, mantissaField_eq_mod]
  rw [hd] at hp
  simp only [e5m2, true_and, List.mem_cons, List.not_mem_nil, or_false] at hp ⊢
  omega

/-- NaN has the max exponent and any other mantissa field. -/
theorem block_tag_eq_three_iff_of_e5m2 (hp : p < 2 ^ u.desc.W) :
    (block u p).tag = 3 ↔ p ∈ [0x7D, 0x7E, 0x7F, 0xFD, 0xFE, 0xFF] := by
  rw [block_tag_eq_three_iff hp, hd, nanCodes_e5m2, exponentField_eq_div_mod, mantissaField_eq_mod]
  rw [hd] at hp
  simp only [e5m2, true_and, List.mem_cons, List.not_mem_nil, or_false] at hp ⊢
  omega

/-- A Finite pattern has a field that is not 0 and an exponent field below the max exponent. -/
theorem mod_sign_bounds_of_tag_eq_one_of_e5m2 (hp : p < 2 ^ u.desc.W) (htag : (block u p).tag = 1) :
    1 ≤ p % 128 ∧ p % 128 ≤ 0x7B := by
  rw [block_tag hp, hd, muxTag_eq_one_iff, classify_eq_subnormal_iff, classify_eq_normal_iff, nanCodes_e5m2,
    exponentField_eq_div_mod, mantissaField_eq_mod] at htag
  simp only [e5m2, true_and, List.mem_cons, List.not_mem_nil, or_false] at htag
  omega

theorem block_largest_of_e5m2 : (block u 0x7B).tag = 1 ∧ magnitude (block u 0x7B) = 57344 := by
  obtain ⟨htag, hmag⟩ := block_of_finite_fields hd (p := 0x7B) (n := 7 * 2 ^ 30) (by decide) (by decide) (by decide)
  exact ⟨htag, hmag.trans (by norm_num [e5m2])⟩

theorem block_smallest_of_e5m2 : (block u 0x01).tag = 1 ∧ magnitude (block u 0x01) = 1 / 65536 := by
  obtain ⟨htag, hmag⟩ := block_of_finite_fields hd (p := 0x01) (n := 2) (by decide) (by decide) (by decide)
  exact ⟨htag, hmag.trans (by norm_num [e5m2])⟩

end

/-- Settles O37: the specials by their fields, and the ends of the range by the order of the magnitudes. -/
theorem e5m2SpecialsAndRange : Obligations.E5m2SpecialsAndRange := by
  intro s hd hs
  have hW : 2 ^ (s.inst.desc.W - 1) = 128 := by rw [hd]; rfl
  have hfinite := mod_sign_bounds_of_tag_eq_one_of_e5m2 hd hs
  obtain ⟨htop, hmax⟩ := block_largest_of_e5m2 hd
  obtain ⟨hbottom, hmin⟩ := block_smallest_of_e5m2 hd
  have hle := magnitude_block_le_of_last hs (t := 0x7B) (by omega) htop (by rw [hW]; exact fun h => (hfinite h).2)
  have hcmp := magnitude_block_compare hs (t := 0x01) (by omega) hbottom
  rw [hmax, hW] at hle
  rw [hmin, hW] at hcmp
  refine ⟨block s.inst s.bits.toNat, step_eq_present s, block_err hs, block_tag_eq_two_iff_of_e5m2 hd hs,
    block_tag_eq_three_iff_of_e5m2 hd hs, hle.1, hle.2, fun htag => ?_⟩
  obtain ⟨-, hge, heq⟩ := hcmp htag
  exact ⟨hge.mpr (hfinite htag).1, heq⟩

/-! ### E4M3 -/

section
variable {u : Instance} (hd : u.desc = e4m3) {p : Nat}
include hd

/-- NaN has the max exponent and the one reserved code. -/
theorem block_tag_eq_three_iff_of_e4m3 (hp : p < 2 ^ u.desc.W) : (block u p).tag = 3 ↔ p ∈ [0x7F, 0xFF] := by
  rw [block_tag_eq_three_iff hp, hd, nanCodes_e4m3, exponentField_eq_div_mod, mantissaField_eq_mod]
  rw [hd] at hp
  simp only [e4m3, Bool.false_eq_true, false_and, not_false_eq_true, true_and, List.mem_cons, List.not_mem_nil,
    or_false] at hp ⊢
  omega

/-- The one pattern above 0x7E, the sign bit left out, is NaN. -/
theorem mod_sign_le_of_tag_eq_one_of_e4m3 (hp : p < 2 ^ u.desc.W) (htag : (block u p).tag = 1) : p % 128 ≤ 0x7E := by
  have hnan : (block u p).tag ≠ 3 := by rw [htag]; decide
  rw [ne_eq, block_tag_eq_three_iff_of_e4m3 hd hp] at hnan
  rw [hd] at hp
  simp only [e4m3, List.mem_cons, List.not_mem_nil, or_false] at hp hnan
  omega

theorem block_largest_of_e4m3 : (block u 0x7E).tag = 1 ∧ magnitude (block u 0x7E) = 448 := by
  obtain ⟨htag, hmag⟩ := block_of_finite_fields hd (p := 0x7E) (n := 14 * 2 ^ 15) (by decide) (by decide)
    (by decide)
  exact ⟨htag, hmag.trans (by norm_num [e4m3])⟩

end

/-- Settles O38: NaN by its fields, and the largest magnitude by the order of the magnitudes. -/
theorem e4m3HasOneNanCodeAndReaches448 : Obligations.E4m3HasOneNanCodeAndReaches448 := by
  intro s hd hs
  have hW : 2 ^ (s.inst.desc.W - 1) = 128 := by rw [hd]; rfl
  obtain ⟨htop, hmax⟩ := block_largest_of_e4m3 hd
  have hle := magnitude_block_le_of_last hs (t := 0x7E) (by omega) htop
    (by rw [hW]; exact mod_sign_le_of_tag_eq_one_of_e4m3 hd hs)
  rw [hmax, hW] at hle
  exact ⟨block s.inst s.bits.toNat, step_eq_present s, block_err hs, block_tag_ne_two hs (by rw [hd]; rfl),
    block_tag_eq_three_iff_of_e4m3 hd hs, hle⟩

/-! ### E2M1 -/

/-- The sixteen values of 44_formats.md R96, row by row of its table. -/
theorem numeric_val_composition_e2m1 : ∀ p < 16,
    (val (composition e2m1 p)).numeric =
      ([0, 1 / 2, 1, 3 / 2, 2, 3, 4, 6, 0, -1 / 2, -1, -3 / 2, -2, -3, -4, -6] : List ℚ)[p]? := by
  decide +kernel

/-- Settles O39: without infinity and without NaN codes no pattern is special, and the values are those of the table. -/
theorem e2m1HasNoSpecialsAndSixteenValues : Obligations.E2m1HasNoSpecialsAndSixteenValues := by
  intro s hd hs
  refine ⟨block s.inst s.bits.toNat, step_eq_present s, block_err hs, block_tag_ne_two hs (by rw [hd]; rfl),
    block_tag_ne_three hs (by rw [hd, nanCodes_e2m1]), ?_⟩
  rw [block_eq_composition hs]
  rw [State.InRange, hd] at hs
  rw [hd]
  exact numeric_val_composition_e2m1 _ hs

end Machine

end Sys2Proof
end

section
/-!
PROOFS. The test bench of 45_external_interface.md: the binary string of an entry (R103), the exact digits of a Finite
value (R104, R107) and the counts of a summary (R106).
-/

namespace Sys2Proof.Machine

/-! ### The binary string -/

theorem length_binaryDigits (w p : Nat) : (binaryDigits w p).length = w := by
  induction w with
  | zero => rfl
  | succ w ih => rw [binaryDigits, List.length_cons, ih]

/-- Reading from the left after `n` appends the lower `w` bits of the pattern to `n`. -/
theorem foldl_binaryDigits (w p n : Nat) :
    (binaryDigits w p).foldl (fun n c => 2 * n + if c = '1' then 1 else 0) n = 2 ^ w * n + p % 2 ^ w := by
  induction w generalizing n with
  | zero => simp [binaryDigits, Nat.mod_one]
  | succ w ih =>
    have hbit : (if (if p.testBit w then '1' else '0') = '1' then 1 else 0) = (p.testBit w).toNat := by
      cases p.testBit w <;> rfl
    rw [binaryDigits, List.foldl_cons, ih, hbit, Nat.mod_pow_succ, Nat.toNat_testBit]
    ring

/-- Settles O41, by `foldl_binaryDigits` at 0. -/
theorem binaryStringReadsBack : Obligations.BinaryStringReadsBack := by
  intro w p hp
  rw [foldl_binaryDigits, Nat.mod_eq_of_lt hp, Nat.mul_zero, Nat.zero_add]
  exact ⟨length_binaryDigits w p, rfl⟩

/-! ### The decimal digits -/

/-- Moving a trailing zero into the scale keeps the value. -/
theorem stripZeros_value (fuel n : Nat) (k : Int) :
    ((stripZeros fuel n k).1 : ℚ) * 10 ^ (stripZeros fuel n k).2 = n * 10 ^ k := by
  induction fuel generalizing n k with
  | zero => rfl
  | succ fuel ih =>
    rw [stripZeros]
    split
    · next hzero =>
      rw [ih, Nat.cast_div (Nat.dvd_of_mod_eq_zero hzero.2) (by norm_num), zpow_add_one₀ (by norm_num)]
      ring
    · rfl

/-- The number itself is fuel enough: each division by ten makes it smaller. -/
theorem stripZeros_mod_ten_ne_zero {fuel n : Nat} (k : Int) (hfuel : n ≤ fuel) (hn : n ≠ 0) :
    (stripZeros fuel n k).1 % 10 ≠ 0 := by
  induction fuel generalizing n k with
  | zero => exact absurd (Nat.le_zero.mp hfuel) hn
  | succ fuel ih =>
    rw [stripZeros]
    split
    · exact ih _ (by omega) (by omega)
    · next hlast => exact fun h => hlast ⟨hn, h⟩

/-- Five to the power `n` over ten to the power `n` is a negative power of two. -/
theorem five_pow_mul_ten_zpow_neg (n : Nat) : (5 : ℚ) ^ n * 10 ^ (-(n : Int)) = 2 ^ (-(n : Int)) := by
  rw [show (10 : ℚ) = 5 * 2 by norm_num, mul_zpow, ← mul_assoc, ← zpow_natCast, ← zpow_add₀ (by norm_num),
    add_neg_cancel, zpow_zero, one_mul]

/-- What `exactDecimal` strips is an exact multiple of a power of ten: an integer, or fives for the missing twos. -/
theorem exactDecimal_eq_stripZeros (sig : Nat) (k : Int) :
    ∃ n c, exactDecimal sig k = stripZeros n n c ∧ (n : ℚ) * 10 ^ c = sig * 2 ^ k ∧ (sig ≠ 0 → n ≠ 0) := by
  rw [exactDecimal]
  split
  · next hk =>
    lift k to Nat using hk
    exact ⟨_, _, rfl, by simp, fun hsig => by simp [hsig]⟩
  · next hk =>
    obtain ⟨n, rfl⟩ : ∃ n : Nat, k = -n := ⟨(-k).toNat, by omega⟩
    refine ⟨_, _, rfl, ?_, fun hsig => by simp [hsig]⟩
    rw [neg_neg, Int.toNat_natCast, Nat.cast_mul, mul_assoc, Nat.cast_pow, Nat.cast_ofNat, five_pow_mul_ten_zpow_neg]

/-- Settles O42: stripping keeps the value that `exactDecimal` starts from and ends at a last digit that is not 0. -/
theorem decimalDigitsAreExact : Obligations.DecimalDigitsAreExact := by
  intro sig k
  obtain ⟨n, c, heq, hvalue, hne⟩ := exactDecimal_eq_stripZeros sig k
  rw [heq, stripZeros_value]
  exact ⟨hvalue, fun hsig => stripZeros_mod_ten_ne_zero c le_rfl (hne hsig)⟩

/-! ### The counts of a summary -/

/-- The four codes of the tag port (43_output_mux.md R80). -/
theorem tag_cases : ∀ t : BitVec 2, t = 0 ∨ t = 1 ∨ t = 2 ∨ t = 3 := by decide

theorem readPorts_eq_nan_iff {d : Descriptor} (o : Outputs d) : readPorts o = .nan ↔ o.tag = 3 := by
  obtain htag | htag | htag | htag := tag_cases o.tag <;> simp [readPorts, htag]

theorem readPorts_eq_infinity_iff {d : Descriptor} (o : Outputs d) :
    readPorts o = .infinity .plus ∨ readPorts o = .infinity .minus ↔ o.tag = 2 := by
  obtain htag | htag | htag | htag := tag_cases o.tag
  case inr.inr.inl => cases hs : Sign.ofBit o.sign <;> simp [readPorts, htag, hs]
  all_goals simp [readPorts, htag]

/-- A list without repetition counts its own members among the integers below a bound. -/
theorem countP_range_mem {n : Nat} {l : List Nat} (hnodup : l.Nodup) (hlt : ∀ p ∈ l, p < n) :
    (List.range n).countP (· ∈ l) = l.length := by
  rw [List.countP_eq_length_filter]
  refine List.Perm.length_eq ((List.perm_ext_iff_of_nodup (List.nodup_range.filter _) hnodup).mpr fun p => ?_)
  rw [List.mem_filter, List.mem_range, decide_eq_true_iff]
  exact and_iff_right_of_imp (hlt p)

/-- The patterns whose Decoded Value a summary counts, from their list. -/
theorem countP_decodePattern {d : Descriptor} {f : DecodedValue → Bool} {l : List Nat} (hnodup : l.Nodup)
    (hlt : ∀ p ∈ l, p < 2 ^ d.W) (hf : ∀ p < 2 ^ d.W, f (decodePattern d p) = true ↔ p ∈ l) :
    ((driverInputs d).map (decodePattern d)).countP f = l.length := by
  rw [List.countP_map, ← countP_range_mem hnodup hlt, driverInputs]
  refine List.countP_congr fun p hp => ?_
  rw [Function.comp_apply, hf p (List.mem_range.mp hp), decide_eq_true_iff]

/-- A summary's counts are the lengths of the lists of its NaN patterns and of its Infinity patterns. -/
theorem summary_eq {d : Descriptor} {nans infs : List Nat} (hnans : nans.Nodup ∧ ∀ p ∈ nans, p < 2 ^ d.W)
    (hinfs : infs.Nodup ∧ ∀ p ∈ infs, p < 2 ^ d.W)
    (hnan : ∀ p < 2 ^ d.W, (block (defaultInstance d) p).tag = 3 ↔ p ∈ nans)
    (hinf : ∀ p < 2 ^ d.W, (block (defaultInstance d) p).tag = 2 ↔ p ∈ infs) :
    summary d = { entries := 2 ^ d.W, nans := nans.length, infinities := infs.length } := by
  rw [summary, countP_decodePattern hnans.1 hnans.2, countP_decodePattern hinfs.1 hinfs.2, List.length_map,
    driverInputs, List.length_range]
  · intro p hp
    rw [Bool.or_eq_true, beq_iff_eq, beq_iff_eq, decodePattern, readPorts_eq_infinity_iff, hinf p hp]
  · intro p hp
    rw [beq_iff_eq, decodePattern, readPorts_eq_nan_iff, hnan p hp]

/-- Settles O40: the lists of special patterns are those of R77, codes 1 and 2 of E5M2 among them (log entry 11). -/
theorem summaryCountsOfTheConfiguredFormats : Obligations.SummaryCountsOfTheConfiguredFormats := by
  refine ⟨?_, ?_, ?_⟩
  · exact summary_eq (d := e5m2) (nans := [0x7D, 0x7E, 0x7F, 0xFD, 0xFE, 0xFF]) (infs := [0x7C, 0xFC])
      (by decide) (by decide) (fun _ hp => block_tag_eq_three_iff_of_e5m2 rfl hp)
      (fun _ hp => block_tag_eq_two_iff_of_e5m2 rfl hp)
  · exact summary_eq (d := e4m3) (nans := [0x7F, 0xFF]) (infs := [])
      (by decide) (by decide) (fun _ hp => block_tag_eq_three_iff_of_e4m3 rfl hp)
      (fun _ hp => iff_of_false (block_tag_ne_two hp rfl) List.not_mem_nil)
  · exact summary_eq (d := e2m1) (nans := []) (infs := [])
      (by decide) (by decide)
      (fun _ hp => iff_of_false (block_tag_ne_three hp nanCodes_e2m1) List.not_mem_nil)
      (fun _ hp => iff_of_false (block_tag_ne_two hp rfl) List.not_mem_nil)

end Sys2Proof.Machine
end

section
/-!
PROOFS. The two errors (60_exceptions.md): the configuration error of elaboration (R110), the `err` port as the range
test (R111), and the range violation as the result of a step (R111, R115).
-/

namespace Sys2Proof.Machine

/-! ### The configuration error -/

/-- Settles O2: elaboration ends as the making of the descriptor does, which O1 (R17) decides. -/
theorem invalidDescriptorYieldsNoInstance : Obligations.InvalidDescriptorYieldsNoInstance := by
  intro r upper bits
  obtain ⟨hvalid, -⟩ := descriptorIsMadeExactlyFromValidFields r
  obtain ⟨herr, hfault⟩ | ⟨d, t, hok, hnext, rfl, hbusw, hout⟩ := elaborate_cases r upper bits
  · refine ⟨fun _ => hfault, fun h => ?_⟩
    obtain ⟨d, hok⟩ := hvalid.mpr h
    cases herr.symm.trans hok
  · exact ⟨fun h => absurd (hvalid.mp ⟨_, hok⟩) h, fun _ => ⟨t, hnext, hok, hbusw, hout⟩⟩

/-! ### The err port -/

/-- The wires above the pattern carry the quotient of the input by `2^W`; where there are none, it is 0. -/
theorem upperWires_toNat (u : Instance) (b : BitVec u.busw) :
    (b.extractLsb' u.desc.W (u.busw - u.desc.W)).toNat = b.toNat / 2 ^ u.desc.W := by
  have hquot : b.toNat / 2 ^ u.desc.W < 2 ^ (u.busw - u.desc.W) := by
    apply Nat.div_lt_of_lt_mul
    rw [← pow_add, Nat.add_sub_cancel' u.fits]
    exact b.isLt
  rw [BitVec.extractLsb'_toNat, Nat.shiftRight_eq_div_pow, Nat.mod_eq_of_lt hquot]

/-- The or of the wires above the pattern is the range test. -/
theorem upperWires_bne_zero (u : Instance) (b : BitVec u.busw) :
    (b.extractLsb' u.desc.W (u.busw - u.desc.W) != 0) = decide (2 ^ u.desc.W ≤ b.toNat) := by
  rw [Bool.eq_iff_iff, bne_iff_ne, decide_eq_true_iff, ne_eq, ← BitVec.toNat_inj, upperWires_toNat,
    BitVec.ofNat_eq_ofNat, BitVec.toNat_zero, Nat.div_eq_zero_iff_lt (Nat.two_pow_pos _), Nat.not_lt]

/-- A value of `2^W` or more needs a wire above the pattern. -/
theorem W_lt_busw_of_outOfRange {u : Instance} {b : BitVec u.busw} (hb : 2 ^ u.desc.W ≤ b.toNat) :
    u.desc.W < u.busw :=
  (Nat.pow_lt_pow_iff_right one_lt_two).mp (hb.trans_lt b.isLt)

/-- The `err` port as a test of the input: the guard against a port of `W` wires is met by every value out of range. -/
theorem errPort_eq_ite (u : Instance) (b : BitVec u.busw) :
    errPort u b = if 2 ^ u.desc.W ≤ b.toNat then 1 else 0 := by
  rw [errPort, upperWires_bne_zero]
  split
  · next hb => simp [hb, W_lt_busw_of_outOfRange hb]
  · next hb => simp [hb]

/-- `err` of the whole block, on and off the patterns. -/
theorem block_err_eq_ite (u : Instance) (n : Nat) : (block u n).err = if 2 ^ u.desc.W ≤ n then 1 else 0 := by
  split
  · next hn => rw [block_of_outOfRange u n hn, raiseRangeViolation_err]
  · next hn => exact block_err (Nat.not_le.mp hn)

/-- Settles O43: `err` as wired and `err` of the block are the same test of the input. -/
theorem errPortIsTheRangeTest : Obligations.ErrPortIsTheRangeTest := by
  intro u b
  refine ⟨?_, fun hbusw => ?_, ?_⟩
  · simp [errPort_eq_ite]
  · rw [errPort_eq_ite, ← hbusw, if_neg (Nat.not_le.mpr b.isLt)]
  · rw [block_err_eq_ite, errPort_eq_ite]

/-! ### The range violation -/

/-- Settles O44: the step presents the value on the port, for which the block raises the range violation. -/
theorem outOfRangeInputIsARangeViolation : Obligations.OutOfRangeInputIsARangeViolation := by
  intro s hs
  refine ⟨raiseRangeViolation s.inst s.bits.toNat, ?_, rfl, if_pos rfl⟩
  rw [step_eq_present, State.present, block_of_outOfRange s.inst s.bits.toNat (Nat.not_lt.mp hs),
    State.evaluate_bits_self]

end Sys2Proof.Machine
end
